-- ==== Sys2Proof/Word.lean ====
section
/-! DEFINITION. The word types of the ds4net codec block: byte values, 16-, 32- and 64-bit words, and the unsigned
offsets and sizes of the configuration record (spec/00_scope.md R5, R6, R8). -/

namespace Sys2Proof

/-- One byte of a buffer or of the command word; bit 0 is its least significant bit (R8). -/
abbrev Byte := BitVec 8

/-- A 16-bit value: `VALUE`, `AUD_CTR`, `BTN`, one axis (R20, R28). -/
abbrev Half := BitVec 16

/-- A 32-bit CRC value (R200). -/
abbrev Word32 := BitVec 32

/-- The 64-bit command word `CMD` (R70). -/
abbrev Word64 := BitVec 64

/-- A `uint8` offset, bound or index of the configuration record (R6): a number, not a pattern of bits. -/
abbrev U8 := Fin 256

/-- A `uint16` size of the configuration record (R6). -/
abbrev U16 := Fin 65536

end Sys2Proof
end

