-- ==== Sys2Proof/Machine/FieldCodec.lean ====
section
/-! DEFINITION. The Field Codec primitives (spec/40_field_codec.md R100 to R104) and the little-endian packing of
spec/00_scope.md R8. A read out of range gives no value (R101). -/

namespace Sys2Proof.Machine

/-- R103: `byte(data, i)`; none out of range (R101). -/
def byteAt (data : List Byte) (i : Nat) : Option Byte := data[i]?

/-- R100: `bit(data, i, k)`; none when the byte index or the bit index is out of range (R101). -/
def bitAt (data : List Byte) (i k : Nat) : Option Bool :=
  if k ≤ 7 then (data[i]?).map (fun b => b.getLsbD k) else none

/-- R102: `setIf(value, mask, condition)`. -/
def setIf (v m : Half) (c : Bool) : Half := if c then v ||| m else v

/-- R8: `u16le(v)`. -/
def u16le (v : Half) : List Byte := [v.extractLsb' 0 8, v.extractLsb' 8 8]

/-- R8: `u32le(v)`. -/
def u32le (v : Word32) : List Byte :=
  [v.extractLsb' 0 8, v.extractLsb' 8 8, v.extractLsb' 16 8, v.extractLsb' 24 8]

/-- R104: `rd16le(data, i) = data[i] + 256 * data[i+1]`. -/
def rd16le (data : List Byte) (i : Nat) : Option Half :=
  match byteAt data i, byteAt data (i + 1) with
  | some lo, some hi => some (BitVec.ofNat 16 (lo.toNat + 256 * hi.toNat))
  | _, _ => none

/-- `rd32le` of spec/44_frame_builder.md R204: four bytes, little-endian. -/
def rd32le (data : List Byte) (i : Nat) : Option Word32 :=
  match byteAt data i, byteAt data (i + 1), byteAt data (i + 2), byteAt data (i + 3) with
  | some b0, some b1, some b2, some b3 =>
    some (BitVec.ofNat 32 (b0.toNat + 256 * b1.toNat + 65536 * b2.toNat + 16777216 * b3.toNat))
  | _, _, _, _ => none

end Sys2Proof.Machine
end

