-- ==== Sys2Proof/Syntax.lean ====
section
/-! DEFINITION. The seven commands of the block (spec/30_encoding.md R75, spec/opcode_table.json), operands decoded. -/

namespace Sys2Proof

/-- The commands of R75, one constructor per row of the opcode table. Every operand is an unsigned field of the command
word (R74); data operands (RawReport, LDSTATE image, audio payload) come from `DIN`, never from the command word. -/
inductive Instr where
  /-- 0x01: correct one raw axis sample `RAW` (R125). -/
  | axcor (raw : Byte)
  /-- 0x02: decode a RawReport into `LSTATE` (R157). -/
  | decode
  /-- 0x03: encode `LSTATE` into a wire packet (R182). -/
  | encode
  /-- 0x04: DECODE then ENCODE, one atomic command (R183). -/
  | decenc
  /-- 0x05: load `LSTATE` from a 12-byte image (R160). -/
  | ldstate
  /-- 0x10: build a ControlFrame (R215). `poll` is the 6-bit field `POLL`, held in a byte: WellFormed checks its range. -/
  | ctrl (poll r g b m0 m1 : Byte)
  /-- 0x11: build an AudioFrame and advance `AUD_CTR` (R218). -/
  | audio
  deriving DecidableEq, Repr

end Sys2Proof
end

