-- ==== Sys2Proof/WellFormed.lean ====
section
/-! DEFINITION. Which instructions have an encoding: the operand ranges of spec/30_encoding.md R72, R73, R80. -/

namespace Sys2Proof

/-- A command is well-formed when its operands fit their fields. A byte operand always does; `POLL` is 6 bits wide, so it
is 0..63 (R73): "A `POLL` wider than 6 bits cannot be encoded" (R206). -/
def Instr.wellFormed : Instr → Bool
  | .axcor _ => true
  | .decode => true
  | .encode => true
  | .decenc => true
  | .ldstate => true
  | .ctrl poll _ _ _ _ _ => decide (poll.toNat < 64)
  | .audio => true

/-- The check as a proposition. -/
abbrev WellFormed (i : Instr) : Prop := i.wellFormed = true

end Sys2Proof
end

