-- ==== Sys2Proof/Decode.lean ====
section
/-! DEFINITION. The decoder of spec/30_encoding.md R79, total on any word and on any bytes, rejecting by name; after it the
encoder, written from the formats of R71 to R73; and the opcode table of spec/opcode_table.json as data. -/

namespace Sys2Proof

/-- Why a command word is illegal (R76), or why bytes hold no command word. -/
inductive DecodeReject where
  /-- R76 (a): `OP` is not in the table. -/
  | unassignedOpcode
  /-- R76 (b): a reserved bit of the format is 1. -/
  | reservedBits
  /-- Fewer than the 8 bytes of a command word (R53, R78). -/
  | tooShort
  deriving DecidableEq, Repr

/-- `OP = CMD[7:0]` (R70). -/
def opField (w : Word64) : Byte := w.extractLsb' 0 8

/-- `CMD[15:8]`: `RAW` of format A (R72, R74). -/
def rawField (w : Word64) : Byte := w.extractLsb' 8 8

/-- `CMD[13:8]`, zero-extended: `POLL` of format C (R73, R74). -/
def pollField (w : Word64) : Byte := (w.extractLsb' 8 6).setWidth 8

/-- `CMD[23:16]` (R73). -/
def rField (w : Word64) : Byte := w.extractLsb' 16 8

/-- `CMD[31:24]` (R73). -/
def gField (w : Word64) : Byte := w.extractLsb' 24 8

/-- `CMD[39:32]` (R73). -/
def bField (w : Word64) : Byte := w.extractLsb' 32 8

/-- `CMD[47:40]` (R73). -/
def m0Field (w : Word64) : Byte := w.extractLsb' 40 8

/-- `CMD[55:48]` (R73). -/
def m1Field (w : Word64) : Byte := w.extractLsb' 48 8

/-- Format N has no operand: `CMD[63:8]` must be 0 (R71). -/
def decodeN (w : Word64) (i : Instr) : Except DecodeReject Instr :=
  if w.extractLsb' 8 56 = 0 then .ok i else .error .reservedBits

/-- Format A: `CMD[63:16]` must be 0 (R72). -/
def decodeA (w : Word64) : Except DecodeReject Instr :=
  if w.extractLsb' 16 48 = 0 then .ok (.axcor (rawField w)) else .error .reservedBits

/-- Format C: `CMD[63:56]` and `CMD[15:14]` must be 0 (R73). -/
def decodeC (w : Word64) : Except DecodeReject Instr :=
  if w.extractLsb' 56 8 = 0 ∧ w.extractLsb' 14 2 = 0 then
    .ok (.ctrl (pollField w) (rField w) (gField w) (bField w) (m0Field w) (m1Field w))
  else .error .reservedBits

/-- The decode procedure of R79: `OP` selects the command, then the reserved bits of its format must be 0. -/
def decode (w : Word64) : Except DecodeReject Instr :=
  if opField w = 0x01#8 then decodeA w
  else if opField w = 0x02#8 then decodeN w .decode
  else if opField w = 0x03#8 then decodeN w .encode
  else if opField w = 0x04#8 then decodeN w .decenc
  else if opField w = 0x05#8 then decodeN w .ldstate
  else if opField w = 0x10#8 then decodeC w
  else if opField w = 0x11#8 then decodeN w .audio
  else .error .unassignedOpcode

/-- The bytes of a command word as a transport carries them: "byte 0 holds `CMD[7:0]` and byte 7 holds `CMD[63:56]`"
(R53). -/
def wordBytes (w : Word64) : List Byte :=
  [w.extractLsb' 0 8, w.extractLsb' 8 8, w.extractLsb' 16 8, w.extractLsb' 24 8,
   w.extractLsb' 32 8, w.extractLsb' 40 8, w.extractLsb' 48 8, w.extractLsb' 56 8]

/-- The command word of eight bytes, little-endian (R53). -/
def wordOfBytes (b0 b1 b2 b3 b4 b5 b6 b7 : Byte) : Word64 :=
  b7 ++ b6 ++ b5 ++ b4 ++ b3 ++ b2 ++ b1 ++ b0

/-- The decoder on bytes: one 8-byte command word, and the bytes after it. Total; fewer than 8 bytes are rejected. -/
def decodeBytes : List Byte → Except DecodeReject (Instr × List Byte)
  | b0 :: b1 :: b2 :: b3 :: b4 :: b5 :: b6 :: b7 :: rest =>
    match decode (wordOfBytes b0 b1 b2 b3 b4 b5 b6 b7) with
    | .ok i => .ok (i, rest)
    | .error e => .error e
  | _ => .error .tooShort

/-- Format N with opcode `op` (R71). -/
def encodeN (op : Byte) : Word64 := 0#56 ++ op

/-- Format A (R72): reserved 63:16, `RAW` 15:8, `OP` 7:0. -/
def encodeA (op raw : Byte) : Word64 := 0#48 ++ raw ++ op

/-- Format C (R73): reserved 63:56, `M1`, `M0`, `B`, `G`, `R`, then the byte 15:8 (reserved 15:14 and `POLL` 13:8), `OP`. -/
def encodeC (op poll r g b m0 m1 : Byte) : Word64 := 0#8 ++ m1 ++ m0 ++ b ++ g ++ r ++ poll ++ op

/-- The command word of an instruction (R75 with the formats R71 to R73). -/
def encode : Instr → Word64
  | .axcor raw => encodeA 0x01#8 raw
  | .decode => encodeN 0x02#8
  | .encode => encodeN 0x03#8
  | .decenc => encodeN 0x04#8
  | .ldstate => encodeN 0x05#8
  | .ctrl poll r g b m0 m1 => encodeC 0x10#8 poll r g b m0 m1
  | .audio => encodeN 0x11#8

/-- The command word of a table row's bits, numbered as spec/opcode_table.json numbers them: bit 0 is the least significant
bit; every bit above `nbits` is 0. -/
def tableWord (nbits w : Nat) : Word64 := BitVec.ofNat 64 (w % 2 ^ nbits)

/-- What the decoder reads from an instruction whose bits are `w`: the word laid out as R53's bytes and given to
`decodeBytes`. Rows wider than the one command length (R78) have no instruction. -/
def decodeTableWord (nbits w : Nat) : Option Instr :=
  if nbits ≤ 64 then
    match decodeBytes (wordBytes (tableWord nbits w)) with
    | .ok (i, _) => some i
    | .error _ => none
  else none

/-- One row of spec/opcode_table.json: `CMD &&& mask = pattern` (R75). -/
structure OpRow where
  mnemonic : String
  pattern  : Word64
  mask     : Word64
  deriving DecidableEq, Repr

/-- The row of the opcode table (spec/opcode_table.json) that an instruction belongs to. -/
def Instr.row : Instr → OpRow
  | .axcor _ => ⟨"axcor", 0x0000000000000001#64, 0xFFFFFFFFFFFF00FF#64⟩
  | .decode => ⟨"decode", 0x0000000000000002#64, 0xFFFFFFFFFFFFFFFF#64⟩
  | .encode => ⟨"encode", 0x0000000000000003#64, 0xFFFFFFFFFFFFFFFF#64⟩
  | .decenc => ⟨"decenc", 0x0000000000000004#64, 0xFFFFFFFFFFFFFFFF#64⟩
  | .ldstate => ⟨"ldstate", 0x0000000000000005#64, 0xFFFFFFFFFFFFFFFF#64⟩
  | .ctrl _ _ _ _ _ _ => ⟨"ctrl", 0x0000000000000010#64, 0xFF0000000000C0FF#64⟩
  | .audio => ⟨"audio", 0x0000000000000011#64, 0xFFFFFFFFFFFFFFFF#64⟩

/-- spec/opcode_table.json, row by row, in the table's order. -/
def opcodeTable : List OpRow :=
  [Instr.row (.axcor 0), Instr.row .decode, Instr.row .encode, Instr.row .decenc, Instr.row .ldstate,
   Instr.row (.ctrl 0 0 0 0 0 0), Instr.row .audio]

/-- `CMD & mask == match` (R75). -/
def OpRow.matchesWord (r : OpRow) (w : Word64) : Bool := w &&& r.mask == r.pattern

end Sys2Proof
end

