-- ==== Sys2Proof/Config.lean ====
section
/-! DEFINITION. The configuration record `CFG` (spec/00_scope.md R6), every parameter a named field, and the free values
of the derived axis constants (spec/10_state.md R27, R31). -/

namespace Sys2Proof

/-- One entry (offset, bit, mask) of `BUTTON_MAP` or `MISC_MAP` (R6, R153). -/
structure MapEntry where
  off  : U8
  bit  : U8
  mask : Half
  deriving DecidableEq, Repr

/-- `DPAD_POLICY`: the treatment of dpad nibbles 8 to 15 (R6, R152). -/
inductive DpadPolicy where
  | none
  | reject
  deriving DecidableEq, Repr

/-- The configuration record `CFG` of R6, in the order of its tables. -/
structure Cfg where
  /-- `AXIS_MIN`: lower bound of the raw sample range. -/
  axisMin : U8
  /-- `AXIS_MAX`: upper bound of the raw sample range. -/
  axisMax : U8
  /-- `AXIS_DZ`: deadzone half-width. -/
  axisDz : U8
  /-- `IN_TAG`: expected value of RawReport byte 0. -/
  inTag : Byte
  /-- `CHECK_TAG`: whether a wrong byte 0 is a DecodeError. -/
  checkTag : Bool
  /-- `BASE`: the fixed offset of the report fields. -/
  base : U8
  /-- `OFF_AX[0..3]`, relative to `BASE`. -/
  offAx : Vector U8 4
  /-- `OFF_BTN0`: the dpad/button byte, relative to `BASE`. -/
  offBtn0 : U8
  /-- `OFF_MISC`: the byte holding the sequence counter, relative to `BASE`. -/
  offMisc : U8
  /-- `OFF_LT`, relative to `BASE`. -/
  offLt : U8
  /-- `OFF_RT`, relative to `BASE`. -/
  offRt : U8
  /-- `DPAD_TABLE[0..7]`: 4-bit patterns. -/
  dpadTable : Vector (BitVec 4) 8
  /-- `DPAD_POLICY`. -/
  dpadPolicy : DpadPolicy
  /-- `BUTTON_MAP`. -/
  buttonMap : List MapEntry
  /-- `MISC_MAP`. -/
  miscMap : List MapEntry
  /-- `CRC_PREFIX`: the byte put before the body for the CRC only. -/
  crcPrefix : Byte
  /-- `CTRL_LEN`: ControlFrame body length, without the trailer. -/
  ctrlLen : U8
  /-- `CTRL_TEMPLATE[0..CTRL_LEN-1]`. -/
  ctrlTemplate : List Byte
  /-- `CTRL_TAG`: report-tag byte, at offset 0. -/
  ctrlTag : Byte
  /-- `OFF_MODE`: offset of the mode/poll-rate byte. -/
  offMode : U8
  /-- `OFF_FLAGS`: offset of the capability-flags byte. -/
  offFlags : U8
  /-- `CTRL_FLAGS`: value of the capability-flags byte. -/
  ctrlFlags : Byte
  /-- `OFF_M0`. -/
  offM0 : U8
  /-- `OFF_M1`. -/
  offM1 : U8
  /-- `OFF_R`. -/
  offR : U8
  /-- `OFF_G`. -/
  offG : U8
  /-- `OFF_B`. -/
  offB : U8
  /-- `AUD_HDR[0..5]`: audio header template. -/
  audHdr : Vector Byte 6
  /-- `OFF_CTR`: offset of the 16-bit counter in the audio header. -/
  offCtr : U8
  /-- `AUD_N`: audio payload size in bytes. -/
  audN : U16
  /-- `AUD_PAD[0..3]`. -/
  audPad : Vector Byte 4
  /-- `AUD_STRIDE`: counter advance per audio frame. -/
  audStride : Half
  /-- `DIN_MAX`: capacity of the input byte buffer. -/
  dinMax : U16
  deriving DecidableEq, Repr

/-- The value of a derived axis constant that reset leaves when `CFG_OK = 0`: "unspecified", "any value" (R27, R31, U6 of
spec/93_implementation_defined.md). The arguments are `AXIS_MIN`, `AXIS_MAX`, `AXIS_DZ` and which of the five constants is
meant (0 center, 1 low, 2 high, 3 span, 4 scale). DESIGN CHOICE: the form of the free value (log 3); safe. -/
opaque Config.freeAxis : U8 → U8 → U8 → Nat → Int

end Sys2Proof
end

