-- ==== Sys2Proof/Machine/Parameters.lean ====
section
/-! DEFINITION. The reference configuration RC (spec/00_scope.md R6) and admissibility of a configuration (R7). -/

namespace Sys2Proof

/-- RC `BUTTON_MAP` (spec/42_report_decoder.md R153). -/
def rcButtonMap : List MapEntry :=
  [⟨5, 4, 0x1000#16⟩, ⟨5, 5, 0x2000#16⟩, ⟨5, 6, 0x4000#16⟩, ⟨5, 7, 0x8000#16⟩,
   ⟨6, 0, 0x0010#16⟩, ⟨6, 1, 0x0020#16⟩, ⟨6, 4, 0x0040#16⟩, ⟨6, 5, 0x0080#16⟩,
   ⟨6, 6, 0x0100#16⟩, ⟨6, 7, 0x0200#16⟩]

/-- RC `MISC_MAP` (R153). -/
def rcMiscMap : List MapEntry := [⟨7, 0, 0x0400#16⟩, ⟨7, 1, 0x0800#16⟩]

/-- The reference configuration RC: the column RC of R6's tables. DESIGN CHOICE of the spec (D2, D12 to D28) for every
value R6 does not mark "source"; unsafe for claims about the physical device (log 1). DESIGN CHOICE of this model, log 21: `AUD_HDR[3]`
and `AUD_HDR[4]`, for which R6, R211 and D24 give no value, are 0x00; the counter replaces both while `OFF_CTR` is RC's 3. -/
def Cfg.rc : Cfg where
  axisMin := 0
  axisMax := 255
  axisDz := 5
  inTag := 0x11#8
  checkTag := true
  base := 2
  offAx := #v[1, 2, 3, 4]
  offBtn0 := 5
  offMisc := 7
  offLt := 8
  offRt := 9
  dpadTable := #v[0x1#4, 0x3#4, 0x2#4, 0x6#4, 0x4#4, 0xC#4, 0x8#4, 0x9#4]
  dpadPolicy := .none
  buttonMap := rcButtonMap
  miscMap := rcMiscMap
  crcPrefix := 0xA2#8
  ctrlLen := 74
  ctrlTemplate := List.replicate 74 0x00#8
  ctrlTag := 0x11#8
  offMode := 1
  offFlags := 3
  ctrlFlags := 0x07#8
  offM0 := 6
  offM1 := 7
  offR := 8
  offG := 9
  offB := 10
  audHdr := #v[0x17#8, 0x40#8, 0xA0#8, 0x00#8, 0x00#8, 0x02#8]
  offCtr := 3
  audN := 448
  audPad := #v[0x00#8, 0x00#8, 0x00#8, 0x00#8]
  audStride := 4#16
  dinMax := 512

/-- The entries of both maps, `BUTTON_MAP ++ MISC_MAP` (R157). -/
def Cfg.mapEntries (c : Cfg) : List MapEntry := c.buttonMap ++ c.miscMap

/-- The report offsets R7 (1) names beside the maps' own. -/
def Cfg.reportOffsets (c : Cfg) : List U8 :=
  c.offAx.toList ++ [c.offBtn0, c.offMisc, c.offLt, c.offRt]

/-- The written offsets of the ControlFrame body, but for the tag's offset 0 (R7 (5)). -/
def Cfg.ctrlOffsets (c : Cfg) : List U8 :=
  [c.offMode, c.offFlags, c.offM0, c.offM1, c.offR, c.offG, c.offB]

/-- `BASE + 10`: the least length of a RawReport (spec/42_report_decoder.md R151). -/
def Cfg.reportLen (c : Cfg) : Nat := c.base.val + 10

/-- R7 (1): every report offset is in 1..9. -/
abbrev Cfg.OffsetsInReport (c : Cfg) : Prop :=
  (∀ e ∈ c.mapEntries, 1 ≤ e.off.val ∧ e.off.val ≤ 9) ∧ (∀ o ∈ c.reportOffsets, 1 ≤ o.val ∧ o.val ≤ 9)

/-- R7 (2): every bit index of the maps is in 0..7. -/
abbrev Cfg.BitsInByte (c : Cfg) : Prop := ∀ e ∈ c.mapEntries, e.bit.val ≤ 7

/-- R7 (3): every mask is a non-zero 16-bit value. -/
abbrev Cfg.MasksNonzero (c : Cfg) : Prop := ∀ e ∈ c.mapEntries, e.mask ≠ 0#16

/-- R7 (4): every `DPAD_TABLE` entry is in 0..15 (the field's type says so already). -/
abbrev Cfg.DpadPatterns (c : Cfg) : Prop := ∀ p ∈ c.dpadTable.toList, p.toNat ≤ 15

/-- R7 (5): the written offsets are distinct, non-zero and less than `CTRL_LEN`. -/
abbrev Cfg.CtrlOffsetsFit (c : Cfg) : Prop :=
  c.ctrlOffsets.Nodup ∧ ∀ o ∈ c.ctrlOffsets, o ≠ 0 ∧ o.val < c.ctrlLen.val

/-- R7 (6): `OFF_CTR` is in 1..4. -/
abbrev Cfg.CounterOffsetFits (c : Cfg) : Prop := 1 ≤ c.offCtr.val ∧ c.offCtr.val ≤ 4

/-- R7 (7): `DIN_MAX >= max(AUD_N, BASE + 10, 12)`. -/
abbrev Cfg.DinFits (c : Cfg) : Prop := max (max c.audN.val c.reportLen) 12 ≤ c.dinMax.val

/-- The shape R6's type column gives `CTRL_LEN` (1..255) and `CTRL_TEMPLATE` (`CTRL_LEN` bytes). DEDUCED (log 12): R7 does
not list it; safe, it only refuses more. -/
abbrev Cfg.TemplateShaped (c : Cfg) : Prop := 1 ≤ c.ctrlLen.val ∧ c.ctrlTemplate.length = c.ctrlLen.val

/-- R7: `CFG` is admissible. The axis parameters are not covered by it. -/
abbrev Cfg.Admissible (c : Cfg) : Prop :=
  c.OffsetsInReport ∧ c.BitsInByte ∧ c.MasksNonzero ∧ c.DpadPatterns ∧ c.CtrlOffsetsFit ∧ c.CounterOffsetFits ∧
    c.DinFits ∧ c.TemplateShaped

end Sys2Proof
end

