-- ==== Sys2Proof/Machine/AxisCorrector.lean ====
section
/-! DEFINITION. The Axis Corrector (spec/41_axis_corrector.md): the derived constants of R120, the validity test of R121 and
the correction function of R122, R123. Exact integers (R9). -/

namespace Sys2Proof.Machine

/-- The five hidden registers `AX_CENTER`, `AX_LOW`, `AX_HIGH`, `AX_SPAN`, `AX_SCALE` (spec/10_state.md R20, R27). -/
structure AxisRegs where
  center : Int
  low    : Int
  high   : Int
  span   : Int
  scale  : Int
  deriving DecidableEq, Repr

/-- `AX_SPAN` (R120): `(mx - mn - 4*dz) / 2`, division truncated toward zero (R9). -/
def axisSpan (mn mx dz : Int) : Int := (mx - mn - 4 * dz).tdiv 2

/-- The constants of R120 for a configuration whose span is positive. -/
def deriveAxis (mn mx dz : Int) : AxisRegs where
  center := (mx + mn).tdiv 2
  low := (mx + mn).tdiv 2 - dz
  high := (mx + mn).tdiv 2 + dz
  span := axisSpan mn mx dz
  scale := Int.tdiv 536870912 (axisSpan mn mx dz)

/-- The free values of the five constants while `CFG_OK = 0` (R27, R31, U6). -/
def freeAxisRegs (c : Cfg) : AxisRegs where
  center := Config.freeAxis c.axisMin c.axisMax c.axisDz 0
  low := Config.freeAxis c.axisMin c.axisMax c.axisDz 1
  high := Config.freeAxis c.axisMin c.axisMax c.axisDz 2
  span := Config.freeAxis c.axisMin c.axisMax c.axisDz 3
  scale := Config.freeAxis c.axisMin c.axisMax c.axisDz 4

/-- `CFG_OK` as reset sets it: `AX_SPAN > 0` (R121, R270). -/
def axisValid (c : Cfg) : Bool := decide (0 < axisSpan c.axisMin.val c.axisMax.val c.axisDz.val)

/-- The derived registers as reset leaves them (R31, R120). -/
def axisRegsOf (c : Cfg) : AxisRegs :=
  if axisValid c then deriveAxis c.axisMin.val c.axisMax.val c.axisDz.val else freeAxisRegs c

/-- R122: saturation to [-32767, 32767]. -/
def clamp (x : Int) : Int := if x < -32767 then -32767 else if 32767 < x then 32767 else x

/-- The scaled distance of a raw sample from the dead band, before clamping; 0 inside it. Both comparisons are strict and
`>>` is the floor shift (R9, R123). -/
def rescale (a : AxisRegs) (raw : Int) : Int :=
  if raw < a.low then (a.scale * (raw - a.low)) >>> (14 : Nat)
  else if a.high < raw then (a.scale * (raw - a.high)) >>> (14 : Nat)
  else 0

/-- R123: `correctAxis(raw)`, for one raw byte. -/
def correctAxis (a : AxisRegs) (raw : Byte) : Int := clamp (rescale a raw.toNat)

/-- The result stored as 16-bit two's complement (R123, R125). -/
def axisHalf (a : AxisRegs) (raw : Byte) : Half := BitVec.ofInt 16 (correctAxis a raw)

end Sys2Proof.Machine
end

