-- ==== Sys2Proof/Machine/State.lean ====
section
/-! DEFINITION. The state of the block (spec/10_state.md R20), its response (R28), what the host side does (spec/20_memory.md
R58, spec/70_reset_and_hazards.md R271, R277), how a step can stop, and reset (R270, R31). -/

namespace Sys2Proof.Machine

/-- The status of a response, by name (spec/60_exceptions.md R240); `Status.code` gives the 8-bit code. -/
inductive Status where
  | ok
  | illegalCmd
  | configError
  | decodeShort
  | decodeBadTag
  | decodeDpad
  | noState
  | badLength
  deriving DecidableEq, Repr

/-- The response to one command: `STATUS`, `VALUE`, `FLAGS`, `DOUT` (R28). -/
structure Response where
  status : Status
  value  : Half
  flags  : Byte
  dout   : List Byte
  deriving DecidableEq, Repr

/-- A LogicalState (R24): the contents of `LSTATE`. -/
structure LogicalState where
  /-- `BTN`: button/dpad bitmask. -/
  btn : Half
  /-- `LT`: left trigger. -/
  lt : Byte
  /-- `RT`: right trigger. -/
  rt : Byte
  /-- `AX[0..3]`: corrected axes, two's complement. -/
  ax : Vector Half 4
  deriving DecidableEq, Repr

/-- What the host side does at the block, one action at a time (R5, R56, R271, R277). -/
inductive HostAction where
  /-- A host agent presents a command: the command word `CMD` and the input buffer `DIN` (R70). -/
  | command (cmd : Word64) (din : List Byte)
  /-- The host takes the held response (R277). -/
  | takeResponse
  /-- Reset, loading a configuration (R270, R271). -/
  | reset (cfg : Cfg)
  deriving DecidableEq, Repr

/-- The state of the machine: the architectural state of R20, the configuration in force, the buffers of the current command,
the held response, and the host side's next actions. -/
structure State where
  /-- `CFG` (R6): fixed at reset, written by no command (R271). -/
  cfg : Cfg
  /-- `AUD_CTR`: the running audio frame counter (R23). -/
  audCtr : Half
  /-- `LSTATE` with its valid bit: `some` is `LSTATE_V = 1`, `none` is `LSTATE_V = 0` with the contents absent (R25, R26). -/
  lstate : Option LogicalState
  /-- `CFG_OK`: axis configuration valid (R27, R121). -/
  cfgOk : Bool
  /-- `AX_CENTER`, `AX_LOW`, `AX_HIGH`, `AX_SPAN`, `AX_SCALE` (R27). -/
  ax : AxisRegs
  /-- `DIN`: the input buffer of the current command (R10, R50). -/
  din : List Byte
  /-- The response the host has not taken yet (R277). -/
  resp : Option Response
  /-- The MODEL's own field: what the host side does next, in the order in which it takes effect (R57, R58). -/
  inbox : List HostAction
  deriving DecidableEq, Repr

/-- Why a run stops with a fault. -/
inductive Fault where
  /-- Raised by DECODE, DECENC and LDSTATE when a Field Codec read is out of range (R101: "it faults, and it never returns a value").
  Unreachable under an admissible configuration; safe. -/
  | fieldBounds
  /-- Raised by step when the host side leaves a held response untaken and presents a command, or does nothing more: the
  stuck run of R277 (S7). Safe: the run stops, it is not finished. -/
  | responseHeld
  deriving DecidableEq, Repr

/-- Why a step is refused. -/
inductive Refusal where
  /-- Raised by exec's arm of an instruction without a meaning (no arm of this model); safe. -/
  | notModelled (mnemonic : String)
  /-- Raised by step when the configuration in force, or the one a reset loads, is not admissible (R7, S4); safe. -/
  | inadmissibleCfg
  /-- Raised by step when a command's `DIN` is longer than `DIN_MAX` (R51, S5: "it has no step"); safe. -/
  | dinTooLong
  deriving DecidableEq, Repr

/-- Reset under the configuration `c` (R270): the counter zero, `LSTATE_V` 0, the axis constants and `CFG_OK` derived; no
command in progress. -/
def State.resetWith (c : Cfg) : State where
  cfg := c
  audCtr := 0x0000#16
  lstate := none
  cfgOk := axisValid c
  ax := axisRegsOf c
  din := []
  resp := none
  inbox := []

/-- The machine right after reset under the reference configuration RC, nothing presented (R270, R31). DESIGN CHOICE: RC as the
configuration reset loads (log 1), the empty inbox (log 4). -/
def State.reset : State := State.resetWith Cfg.rc

end Sys2Proof.Machine
end

