-- ==== Sys2Proof/Machine/Flags.lean ====
section
/-! DEFINITION. The flag byte (spec/10_state.md R29) and the status codes (spec/60_exceptions.md R240). -/

namespace Sys2Proof.Machine

/-- `FLAGS`: bit 0 is `DPAD_NONE`, bits 7:1 are always 0 (R29). -/
def flagsByte (dpadNone : Bool) : Byte := if dpadNone then 0x01#8 else 0x00#8

/-- The 8-bit `STATUS` code (R240). -/
def Status.code : Status → Byte
  | .ok => 0x00#8
  | .illegalCmd => 0x01#8
  | .configError => 0x02#8
  | .decodeShort => 0x03#8
  | .decodeBadTag => 0x04#8
  | .decodeDpad => 0x05#8
  | .noState => 0x06#8
  | .badLength => 0x07#8

/-- Which commands raise which status (R240, the column "raised by"; ILLEGAL_CMD is raised by no legal command). -/
def mayRaise : Instr → List Status
  | .axcor _ => [.configError]
  | .decode => [.configError, .decodeShort, .decodeBadTag, .decodeDpad]
  | .encode => [.noState]
  | .decenc => [.configError, .decodeShort, .decodeBadTag, .decodeDpad]
  | .ldstate => [.badLength]
  | .ctrl _ _ _ _ _ _ => []
  | .audio => [.badLength]

/-- `LSTATE_V` (R25): 1 iff `LSTATE` holds a LogicalState. -/
def State.lstateV (s : State) : Bool := s.lstate.isSome

end Sys2Proof.Machine
end

