-- ==== Sys2Proof/Machine/Ops.lean ====
section
/-! DEFINITION. The named operations every meaning is written over: ending a command with OK or with an error status, the
writes of `LSTATE` and `AUD_CTR`, and the opening and closing of the command buffers. -/

namespace Sys2Proof.Machine

/-- The response becomes the held one. -/
def respond (r : Response) (s : State) : State := { s with resp := some r }

/-- `finish` (R10): the command ends with status `OK`. -/
def finish (value : Half) (flags : Byte) (dout : List Byte) (s : State) : State :=
  respond ⟨.ok, value, flags, dout⟩ s

/-- `raise E` (R10, R240): the block's one form of exception. The command ends with status `E`; `VALUE` and `FLAGS` are 0,
`DOUT` is empty, no state changes. Nothing is saved and there is nothing to return from (R250). -/
def raise (e : Status) (s : State) : State := respond ⟨e, 0x0000#16, 0x00#8, []⟩ s

/-- `LSTATE <- l`, `LSTATE_V <- 1` (R25). -/
def latch (l : LogicalState) (s : State) : State := { s with lstate := some l }

/-- `LSTATE_V <- 0` (R25); the contents are absent then (R26, log 2). -/
def dropLatch (s : State) : State := { s with lstate := none }

/-- `fail E = LSTATE_V <- 0 ; raise E` (spec/42_report_decoder.md R157). -/
def failDecode (e : Status) (s : State) : State := raise e (dropLatch s)

/-- `AUD_CTR <- (AUD_CTR + AUD_STRIDE) mod 2^16` (R23, R218). -/
def advanceCounter (s : State) : State := { s with audCtr := s.audCtr + s.cfg.audStride }

/-- A command is accepted: its input buffer is the one presented, the rest of the host side's actions remain (R50). -/
def openBuffers (din : List Byte) (rest : List HostAction) (s : State) : State := { s with din := din, inbox := rest }

/-- A command is over: its input buffer is gone (R50: the buffers "exist for the duration of one command"). -/
def closeBuffers : Host.Outcome State Fault Refusal → Host.Outcome State Fault Refusal
  | .next s => .next { s with din := [] }
  | .fault f => .fault f
  | .refused r => .refused r

end Sys2Proof.Machine
end

