-- ==== Sys2Proof/Machine/Operands.lean ====
section
/-! DEFINITION. The operand forms: every read of `DIN` a command makes (spec/30_encoding.md R83). The operand fields of the
command word (R74) are decoded in Sys2Proof/Decode.lean. -/

namespace Sys2Proof.Machine

/-- `DIN[BASE + o]` (R83, spec/42_report_decoder.md R150). -/
def reportByte (c : Cfg) (din : List Byte) (o : U8) : Option Byte := byteAt din (c.base.val + o.val)

/-- `bit(DIN, BASE + o, k)` for a map entry (R153). -/
def reportBit (c : Cfg) (din : List Byte) (e : MapEntry) : Option Bool :=
  bitAt din (c.base.val + e.off.val) e.bit.val

/-- The dpad nibble of its byte: bits 3:0 only (R152). -/
def dpadNibble (b : Byte) : Fin 16 := (b.extractLsb' 0 4).toFin

/-- `SEQ <- b >> 2`, zero-extended to 16 bits (R156). -/
def seqOf (b : Byte) : Half := (b >>> 2).setWidth 16

/-- The LogicalState of an LDSTATE image (R159): `BTN` at 0..1, `LT` at 2, `RT` at 3, `AX[i]` at 4+2i. -/
def imageState (din : List Byte) : Option LogicalState := do
  let btn ← rd16le din 0
  let lt ← byteAt din 2
  let rt ← byteAt din 3
  let a0 ← rd16le din 4
  let a1 ← rd16le din 6
  let a2 ← rd16le din 8
  let a3 ← rd16le din 10
  pure ⟨btn, lt, rt, #v[a0, a1, a2, a3]⟩

end Sys2Proof.Machine
end

