-- ==== Sys2Proof/Machine/AxisCommand.lean ====
section
/-! DEFINITION. The AXCOR command (spec/41_axis_corrector.md R125). -/

namespace Sys2Proof.Machine

/-- R125: AXCOR. CONFIG_ERROR while `CFG_OK = 0`; else `VALUE` is the corrected sample, two's complement. -/
def execAxcor (raw : Byte) (s : State) : Host.Outcome State Fault Refusal :=
  if s.cfgOk then .next (finish (axisHalf s.ax raw) 0x00#8 [] s)
  else .next (raise .configError s)

end Sys2Proof.Machine
end

