-- ==== Sys2Proof/Machine/Crc32.lean ====
section
/-! DEFINITION. The CRC-32 of spec/44_frame_builder.md R200 and the framing function of R202. -/

namespace Sys2Proof.Machine

/-- One of the eight bit steps of R200: shift right, and XOR the reflected polynomial if the bit shifted out was 1. -/
def crcBit (c : Word32) : Word32 :=
  if c.getLsbD 0 then (c >>> 1) ^^^ 0xEDB88320#32 else c >>> 1

/-- One message byte of R200: XOR it into the low byte, then eight bit steps. -/
def crcByte (c : Word32) (b : Byte) : Word32 :=
  crcBit (crcBit (crcBit (crcBit (crcBit (crcBit (crcBit (crcBit (c ^^^ b.setWidth 32))))))))

/-- The CRC register after the bytes of `msg`, index 0 first, from `c`. -/
def crcFold (c : Word32) (msg : List Byte) : Word32 := msg.foldl crcByte c

/-- R200: `CRC32(msg)`. -/
def crc32 (msg : List Byte) : Word32 := crcFold 0xFFFFFFFF#32 msg ^^^ 0xFFFFFFFF#32

/-- R202: `frame(body) = body ‖ u32le(CRC32([CRC_PREFIX] ‖ body))`. The prefix enters the CRC but not the frame (R203). -/
def frame (crcPrefix : Byte) (body : List Byte) : List Byte := body ++ u32le (crc32 (crcPrefix :: body))

end Sys2Proof.Machine
end

