-- ==== Sys2Proof/Machine/FrameBuilder.lean ====
section
/-! DEFINITION. The Control Frame Builder (spec/44_frame_builder.md): the ControlFrame body (R205 to R209) and CTRL (R215), the
AudioFrame body (R210 to R213) and AUDIO (R218). -/

namespace Sys2Proof.Machine

/-- R206: the mode/poll-rate byte, `0xC0 | POLL`. -/
def modeByte (poll : Byte) : Byte := 0xC0#8 ||| poll

/-- A byte sequence with bytes written at offsets, first to last. -/
def writeFields : List Byte → List (Nat × Byte) → List Byte
  | body, [] => body
  | body, (o, v) :: ws => writeFields (body.set o v) ws

/-- The field writes of R215, in its order: tag, mode/poll-rate byte (R206), capability flags (R207), motors and colour
(R208). -/
def ctrlWrites (c : Cfg) (poll r g b m0 m1 : Byte) : List (Nat × Byte) :=
  [(0, c.ctrlTag), (c.offMode.val, modeByte poll), (c.offFlags.val, c.ctrlFlags), (c.offM0.val, m0), (c.offM1.val, m1),
   (c.offR.val, r), (c.offG.val, g), (c.offB.val, b)]

/-- R215: the ControlFrame body, the field writes over `CTRL_TEMPLATE` (R209). -/
def ctrlBody (c : Cfg) (poll r g b m0 m1 : Byte) : List Byte :=
  writeFields c.ctrlTemplate (ctrlWrites c poll r g b m0 m1)

/-- R211: the audio header, `AUD_HDR` with the counter at `OFF_CTR`, little-endian. -/
def audioHeader (c : Cfg) (ctr : Half) : List Byte :=
  (c.audHdr.toList.set c.offCtr.val (ctr.extractLsb' 0 8)).set (c.offCtr.val + 1) (ctr.extractLsb' 8 8)

/-- R210: header, payload, trailing padding. -/
def audioBody (c : Cfg) (ctr : Half) (payload : List Byte) : List Byte :=
  audioHeader c ctr ++ payload ++ c.audPad.toList

/-- R215: CTRL. It depends on no state and writes none. -/
def execCtrl (poll r g b m0 m1 : Byte) (s : State) : Host.Outcome State Fault Refusal :=
  .next (finish 0x0000#16 0x00#8 (frame s.cfg.crcPrefix (ctrlBody s.cfg poll r g b m0 m1)) s)

/-- R218: AUDIO. BAD_LENGTH unless `DLEN = AUD_N` (R217); else the frame of the counter's value before the increment, which is
also `VALUE`, and the counter advances. -/
def execAudio (s : State) : Host.Outcome State Fault Refusal :=
  if s.din.length = s.cfg.audN.val then
    .next (finish s.audCtr 0x00#8 (frame s.cfg.crcPrefix (audioBody s.cfg s.audCtr s.din)) (advanceCounter s))
  else .next (raise .badLength s)

end Sys2Proof.Machine
end

