-- ==== Sys2Proof/Machine/ReportDecoder.lean ====
section
/-! DEFINITION. The Report Decoder (spec/42_report_decoder.md): field extraction (R152 to R156), DECODE_CORE shared by DECODE
and DECENC (R157), the DECODE and LDSTATE commands (R157, R160). -/

namespace Sys2Proof.Machine

/-- What a RawReport decodes to: the LogicalState, the sequence counter and the dpad-none flag. -/
structure Decoded where
  lstate   : LogicalState
  seq      : Half
  dpadNone : Bool
  deriving DecidableEq, Repr

/-- R152: the bitmask seed of the dpad nibble and whether the dpad points nowhere; DECODE_DPAD for nibbles 8 to 15 under
`DPAD_POLICY = REJECT`. -/
def dpadSeed (c : Cfg) (n : Fin 16) : Except Status (Half × Bool) :=
  if h : n.val ≤ 7 then .ok ((c.dpadTable[n.val]'(by omega)).setWidth 16, false)
  else
    match c.dpadPolicy with
    | .none => .ok (0x0000#16, true)
    | .reject => .error .decodeDpad

/-- R153: OR in each map entry whose report bit is set, in order. -/
def orMap (c : Cfg) (din : List Byte) : List MapEntry → Half → Option Half
  | [], btn => some btn
  | e :: es, btn =>
    match reportBit c din e with
    | some b => orMap c din es (setIf btn e.mask b)
    | none => none

/-- R155: `AX[i] <- correctAxis(DIN[BASE + OFF_AX[i]])`, i = 0, 1, 2, 3. -/
def reportAxes (c : Cfg) (a : AxisRegs) (din : List Byte) : Option (Vector Half 4) := do
  let r0 ← reportByte c din c.offAx[0]
  let r1 ← reportByte c din c.offAx[1]
  let r2 ← reportByte c din c.offAx[2]
  let r3 ← reportByte c din c.offAx[3]
  pure #v[axisHalf a r0, axisHalf a r1, axisHalf a r2, axisHalf a r3]

/-- R153 to R156, once the dpad has seeded the bitmask: buttons, triggers, axes, sequence counter. -/
def reportFields (c : Cfg) (a : AxisRegs) (din : List Byte) (seed : Half) (dpadNone : Bool) : Option Decoded := do
  let btn ← orMap c din c.mapEntries seed
  let lt ← reportByte c din c.offLt
  let rt ← reportByte c din c.offRt
  let ax ← reportAxes c a din
  let misc ← reportByte c din c.offMisc
  pure ⟨⟨btn, lt, rt, ax⟩, seqOf misc, dpadNone⟩

/-- R151 (2): whether the report-type tag is the expected one; not read when `CHECK_TAG` is false. -/
def tagMatches (c : Cfg) (din : List Byte) : Bool := !c.checkTag || byteAt din 0 == some c.inTag

/-- The checks and the extraction of DECODE_CORE (R157), in its order. `none` is a Field Codec bounds error (R101). -/
def decodeReport (s : State) : Option (Except Status Decoded) :=
  if s.cfgOk = false then some (.error .configError)
  else if s.din.length < s.cfg.reportLen then some (.error .decodeShort)
  else if tagMatches s.cfg s.din = false then some (.error .decodeBadTag)
  else
    match reportByte s.cfg s.din s.cfg.offBtn0 with
    | none => none
    | some b =>
      match dpadSeed s.cfg (dpadNibble b) with
      | .error e => some (.error e)
      | .ok (seed, dpadNone) => (reportFields s.cfg s.ax s.din seed dpadNone).map .ok

/-- DECODE_CORE (R157) and the end of the command, with `dout` of the decoded state as its output: on success `LSTATE`,
`LSTATE_V`, `VALUE` and `FLAGS` are written; on an error `LSTATE_V` is cleared and the error raised. -/
def decodeCore (dout : LogicalState → List Byte) (s : State) : Host.Outcome State Fault Refusal :=
  match decodeReport s with
  | none => .fault .fieldBounds
  | some (.error e) => .next (failDecode e s)
  | some (.ok d) => .next (finish d.seq (flagsByte d.dpadNone) (dout d.lstate) (latch d.lstate s))

/-- R157: DECODE. `DOUT` is empty. -/
def execDecode (s : State) : Host.Outcome State Fault Refusal := decodeCore (fun _ => []) s

/-- R160: LDSTATE. BAD_LENGTH unless `DLEN = 12`; it does not depend on `CFG_OK`. -/
def execLdstate (s : State) : Host.Outcome State Fault Refusal :=
  if s.din.length = 12 then
    match imageState s.din with
    | some l => .next (finish 0x0000#16 0x00#8 [] (latch l s))
    | none => .fault .fieldBounds
  else .next (raise .badLength s)

end Sys2Proof.Machine
end

