-- ==== Sys2Proof/Machine/WireEncoder.lean ====
section
/-! DEFINITION. The Wire Packet Encoder (spec/43_wire_encoder.md): the 13-byte packet (R180), ENCODE (R182), DECENC (R183). -/

namespace Sys2Proof.Machine

/-- R180: `wire(S)`. -/
def wire (l : LogicalState) : List Byte :=
  0x01#8 :: (u16le l.btn ++ [l.lt, l.rt] ++ u16le l.ax[0] ++ u16le l.ax[1] ++ u16le l.ax[2] ++ u16le l.ax[3])

/-- R182: ENCODE. NO_STATE while `LSTATE_V = 0`; no state is written. -/
def execEncode (s : State) : Host.Outcome State Fault Refusal :=
  match s.lstate with
  | none => .next (raise .noState s)
  | some l => .next (finish 0x0000#16 0x00#8 (wire l) s)

/-- R183: DECENC, DECODE_CORE with its fail paths, then the packet of the state it latched. -/
def execDecenc (s : State) : Host.Outcome State Fault Refusal := decodeCore wire s

end Sys2Proof.Machine
end

