-- ==== Sys2Proof/Machine/Dispatch.lean ====
section
/-! DEFINITION. One arm per command of spec/30_encoding.md R75. -/

namespace Sys2Proof.Machine

def exec (i : Instr) (s : State) : Host.Outcome State Fault Refusal :=
  match i with
  | .axcor raw => Sys2Proof.Machine.execAxcor raw s
  | .decode => Sys2Proof.Machine.execDecode s
  | .encode => Sys2Proof.Machine.execEncode s
  | .decenc => Sys2Proof.Machine.execDecenc s
  | .ldstate => Sys2Proof.Machine.execLdstate s
  | .ctrl poll r g b m0 m1 => Sys2Proof.Machine.execCtrl poll r g b m0 m1 s
  | .audio => Sys2Proof.Machine.execAudio s

end Sys2Proof.Machine
end

