-- ==== Sys2Proof/Machine/Port.lean ====
section
/-! DEFINITION. The command port: how the block serves the host side's next action (spec/00_scope.md R5, spec/20_memory.md R51,
R57, spec/30_encoding.md R76, R79, spec/70_reset_and_hazards.md R270, R277). -/

namespace Sys2Proof.Machine

/-- R79: decode the command word and perform it; an illegal word raises ILLEGAL_CMD and changes nothing else (R76, R241). -/
def performWord (w : Word64) (s : State) : Host.Outcome State Fault Refusal :=
  match decode w with
  | .ok i => exec i s
  | .error _ => .next (raise .illegalCmd s)

/-- A presented command. While a response is held the block accepts none (R277); a `DIN` over `DIN_MAX` has no step (R51). -/
def serveCommand (w : Word64) (din : List Byte) (rest : List HostAction) (s : State) :
    Host.Outcome State Fault Refusal :=
  if s.resp.isSome then .fault .responseHeld
  else if s.cfg.dinMax.val < din.length then .refused .dinTooLong
  else closeBuffers (performWord w (openBuffers din rest s))

/-- The host takes the held response (R277). With none held there is nothing to take (DESIGN CHOICE, log 6). -/
def serveTake (rest : List HostAction) (s : State) : Host.Outcome State Fault Refusal :=
  .next { s with resp := none, inbox := rest }

/-- Reset with a configuration, as one step (R270, R271); an inadmissible one is refused (R7, R272). A response still held
stays held, since the block never drops one (R277; DEDUCED, log 7). -/
def serveReset (c : Cfg) (rest : List HostAction) (s : State) : Host.Outcome State Fault Refusal :=
  if c.Admissible then .next { State.resetWith c with resp := s.resp, inbox := rest }
  else .refused .inadmissibleCfg

/-- Nothing more from the host side: the block is idle and its state persists (R258), or, with a response never taken, the run
is stuck (R277). -/
def serveIdle (s : State) : Host.Outcome State Fault Refusal :=
  if s.resp.isSome then .fault .responseHeld else .next s

/-- The block serves the host side's next action. No behaviour is specified under an inadmissible configuration (R7). -/
def serve (s : State) : Host.Outcome State Fault Refusal :=
  if s.cfg.Admissible then
    match s.inbox with
    | [] => serveIdle s
    | .command w din :: rest => serveCommand w din rest s
    | .takeResponse :: rest => serveTake rest s
    | .reset c :: rest => serveReset c rest s
  else .refused .inadmissibleCfg

/-- The table word `w` presented as the very next command, with the input buffer `DIN` as it stands in `s`; a response still
held is taken, or the block would not accept it (R277). -/
def presentWord (s : State) (nbits w : Nat) : State :=
  { s with inbox := .command (tableWord nbits w) s.din :: s.inbox, resp := none }

end Sys2Proof.Machine
end

