-- ==== Sys2Proof/Machine/Step.lean ====
section
/-! DEFINITION. The step function: the block serves the host side's next action (Machine/Port.lean). -/

namespace Sys2Proof.Machine

/-- One step of the machine (spec/20_memory.md R55, R57: one whole command, or one other action of the host side). -/
def step (s : State) : Host.Outcome State Fault Refusal := serve s

/-- `s` with the table word `w` presented where step takes its next command from (log 4): the block has no program counter and
no program store (spec/10_state.md R22), so its next instruction is the next command the host side presents. -/
def State.withFetchWord (s : State) (nbits w : Nat) : State := presentWord s nbits w

end Sys2Proof.Machine
end

