-- ==== Sys2Proof/Machine/Assembler.lean ====
section
/-! DEFINITION. The assembler of spec/30_encoding.md R80 and its pseudo-instruction `hstop` (R81): host-side notation for
command words and input buffers. It yields the host side's actions; it is no part of the block. -/

namespace Sys2Proof.Machine

/-- One assembly command with its operands as written, any number (R80). -/
inductive Asm where
  | axcor (raw : Nat)
  | decode
  | encode
  | decenc
  | ldstate
  | ctrl (poll r g b m0 m1 : Nat)
  | audio
  /-- The pseudo-instruction of R81. -/
  | hstop (poll r g b : Nat)
  deriving DecidableEq, Repr

/-- One assembly line: a `din` list of bytes, `din zeros(n)`, or a command (R80). -/
inductive AsmLine where
  | din (bytes : List Nat)
  | dinZeros (n : Nat)
  | cmd (a : Asm)
  deriving DecidableEq, Repr

/-- R81: `hstop poll, r, g, b` expands to `ctrl poll, r, g, b, 0, 0`. -/
def Asm.expand : Asm → Asm
  | .hstop poll r g b => .ctrl poll r g b 0 0
  | .axcor raw => .axcor raw
  | .decode => .decode
  | .encode => .encode
  | .decenc => .decenc
  | .ldstate => .ldstate
  | .ctrl poll r g b m0 m1 => .ctrl poll r g b m0 m1
  | .audio => .audio

/-- R80: the assembler rejects `raw`, `r`, `g`, `b`, `m0`, `m1` outside 0..255 and `poll` outside 0..63. -/
def Asm.inRange (a : Asm) : Bool :=
  match a with
  | .axcor raw => decide (raw < 256)
  | .ctrl poll r g b m0 m1 =>
    decide (poll < 64 ∧ r < 256 ∧ g < 256 ∧ b < 256 ∧ m0 < 256 ∧ m1 < 256)
  | .hstop poll r g b => decide (poll < 64 ∧ r < 256 ∧ g < 256 ∧ b < 256)
  | .decode => true
  | .encode => true
  | .decenc => true
  | .ldstate => true
  | .audio => true

/-- The column `CMD` of R80, as arithmetic on the operands as written. -/
def Asm.cmdNumber (a : Asm) : Nat :=
  match a.expand with
  | .axcor raw => 0x01 + (raw <<< 8)
  | .decode => 0x02
  | .encode => 0x03
  | .decenc => 0x04
  | .ldstate => 0x05
  | .ctrl poll r g b m0 m1 =>
    0x10 + (poll <<< 8) + (r <<< 16) + (g <<< 24) + (b <<< 32) + (m0 <<< 40) + (m1 <<< 48)
  | .audio => 0x11
  | .hstop _ _ _ _ => 0

/-- The command word of an assembly command; none where the assembler rejects an operand (R80). -/
def Asm.word (a : Asm) : Option Word64 :=
  if a.inRange then some (BitVec.ofNat 64 a.cmdNumber) else none

/-- The instruction an assembly command names. -/
def Asm.instr (a : Asm) : Option Instr :=
  if a.inRange then
    match a.expand with
    | .axcor raw => some (.axcor (BitVec.ofNat 8 raw))
    | .decode => some .decode
    | .encode => some .encode
    | .decenc => some .decenc
    | .ldstate => some .ldstate
    | .ctrl poll r g b m0 m1 =>
      some (.ctrl (BitVec.ofNat 8 poll) (BitVec.ofNat 8 r) (BitVec.ofNat 8 g) (BitVec.ofNat 8 b)
        (BitVec.ofNat 8 m0) (BitVec.ofNat 8 m1))
    | .audio => some .audio
    | .hstop _ _ _ _ => none
  else none

/-- A list of bytes as written; none if one is outside 0..255. -/
def asmBytes : List Nat → Option (List Byte)
  | [] => some []
  | n :: ns =>
    match asmBytes ns with
    | some bs => if n < 256 then some (BitVec.ofNat 8 n :: bs) else none
    | none => none

/-- A program's commands in order, each with the input buffer of the `din` line before it, or an empty one (R80). A `din` line
that no command follows is rejected (DESIGN CHOICE, log 16). -/
def assembleFrom : Option (List Byte) → List AsmLine → Option (List HostAction)
  | none, [] => some []
  | some _, [] => none
  | none, .din ns :: ls =>
    match asmBytes ns with
    | some bs => assembleFrom (some bs) ls
    | none => none
  | none, .dinZeros n :: ls => assembleFrom (some (List.replicate n 0x00#8)) ls
  | some _, .din _ :: _ => none
  | some _, .dinZeros _ :: _ => none
  | pending, .cmd a :: ls =>
    match a.word, assembleFrom none ls with
    | some w, some rest => some (.command w (pending.getD []) :: rest)
    | _, _ => none

/-- The commands of an assembled program (R80). -/
def assemble (ls : List AsmLine) : Option (List HostAction) := assembleFrom none ls

/-- A token of an assembly line: a word, or one of the signs `,` `[` `]` `(` `)`. -/
inductive AsmToken where
  | word (cs : List Char)
  | sign (c : Char)
  deriving DecidableEq, Repr

/-- The word collected so far, if any, before the tokens after it. -/
def closeWord (cs : List Char) (ts : List AsmToken) : List AsmToken :=
  if cs.isEmpty then ts else .word cs.reverse :: ts

/-- The tokens of a line up to its comment; `cs` is the word being collected, backwards. A `;` starts a comment (R80). -/
def asmTokens : List Char → List Char → List AsmToken
  | cs, [] => closeWord cs []
  | cs, x :: xs =>
    if x = ';' then closeWord cs []
    else if x = ' ' ∨ x = '\t' then closeWord cs (asmTokens [] xs)
    else if x = ',' ∨ x = '[' ∨ x = ']' ∨ x = '(' ∨ x = ')' then closeWord cs (.sign x :: asmTokens [] xs)
    else asmTokens (x :: cs) xs

/-- The value of a digit in a base up to 16. -/
def digitValue (base : Nat) (x : Char) : Option Nat :=
  let v :=
    if '0' ≤ x ∧ x ≤ '9' then x.toNat - '0'.toNat
    else if 'a' ≤ x ∧ x ≤ 'f' then x.toNat - 'a'.toNat + 10
    else if 'A' ≤ x ∧ x ≤ 'F' then x.toNat - 'A'.toNat + 10
    else 16
  if v < base then some v else none

/-- A number's digits, most significant first. -/
def digitsValue (base : Nat) : Nat → List Char → Option Nat
  | n, [] => some n
  | n, x :: xs =>
    match digitValue base x with
    | some d => digitsValue base (n * base + d) xs
    | none => none

/-- A decimal or `0x` hexadecimal operand (R80). -/
def asmNumber : List Char → Option Nat
  | '0' :: 'x' :: x :: xs => digitsValue 16 0 (x :: xs)
  | x :: xs => digitsValue 10 0 (x :: xs)
  | [] => none

/-- Operands separated by commas (R80), up to the end of the tokens. -/
def asmOperands : List AsmToken → Option (List Nat)
  | [.word cs] => (asmNumber cs).map fun n => [n]
  | .word cs :: .sign ',' :: ts =>
    match asmNumber cs, asmOperands ts with
    | some n, some ns => some (n :: ns)
    | _, _ => none
  | _ => none

/-- The bytes between `[` and `]`. -/
def asmByteList (ts : List AsmToken) : Option (List Nat) :=
  match ts.reverse with
  | [.sign ']'] => some []
  | .sign ']' :: back => asmOperands back.reverse
  | _ => none

/-- The tokens of a `din` line after the word `din` (R80). -/
def asmDin : List AsmToken → Option AsmLine
  | .sign '[' :: ts => (asmByteList ts).map .din
  | [.word ['z', 'e', 'r', 'o', 's'], .sign '(', .word cs, .sign ')'] => (asmNumber cs).map .dinZeros
  | _ => none

/-- A command's mnemonic, lower-case, and its operands (R80, R81). -/
def asmCommand (mnemonic : List Char) (ops : List Nat) : Option Asm :=
  match mnemonic, ops with
  | ['a', 'x', 'c', 'o', 'r'], [raw] => some (.axcor raw)
  | ['d', 'e', 'c', 'o', 'd', 'e'], [] => some .decode
  | ['e', 'n', 'c', 'o', 'd', 'e'], [] => some .encode
  | ['d', 'e', 'c', 'e', 'n', 'c'], [] => some .decenc
  | ['l', 'd', 's', 't', 'a', 't', 'e'], [] => some .ldstate
  | ['c', 't', 'r', 'l'], [poll, r, g, b, m0, m1] => some (.ctrl poll r g b m0 m1)
  | ['a', 'u', 'd', 'i', 'o'], [] => some .audio
  | ['h', 's', 't', 'o', 'p'], [poll, r, g, b] => some (.hstop poll r g b)
  | _, _ => none

/-- The text of one line: no line at all for a blank or comment line, none inside for text that is no assembly (R80). -/
def asmParseLine (text : List Char) : Option (List AsmLine) :=
  match asmTokens [] text with
  | [] => some []
  | .word ['d', 'i', 'n'] :: ts => (asmDin ts).map fun l => [l]
  | [.word m] => (asmCommand m []).map fun a => [.cmd a]
  | .word m :: ts =>
    match asmOperands ts with
    | some ops => (asmCommand m ops).map fun a => [.cmd a]
    | none => none
  | _ => none

/-- The text of a program, line by line, assembled (R80). -/
def assembleText (lines : List (List Char)) : Option (List HostAction) :=
  match lines.mapM asmParseLine with
  | some ls => assemble ls.flatten
  | none => none

end Sys2Proof.Machine
end

