-- ==== Sys2Proof/Safety.lean ====
section
/-! DEFINITION. What a safe run is: the invariant every step keeps, and the stops that the spec does not name. -/

namespace Sys2Proof.Machine

/-- A response of the shape spec/60_exceptions.md R240 and spec/10_state.md R29 give: an error response has `VALUE = 0`,
`FLAGS = 0` and an empty `DOUT`; `FLAGS` bits 7:1 are 0. -/
def Response.Shaped (r : Response) : Prop :=
  (r.status ≠ .ok → r.value = 0x0000#16 ∧ r.flags = 0x00#8 ∧ r.dout = []) ∧ (r.flags = 0x00#8 ∨ r.flags = 0x01#8)

/-- The registers that only reset writes are what reset derived from the configuration in force (R27, R271). -/
def State.AxisDerived (s : State) : Prop := s.cfgOk = axisValid s.cfg ∧ s.ax = axisRegsOf s.cfg

/-- The counter is a whole number of strides from zero, modulo 2^16 (R23, R218, R276). -/
def State.CounterOnStride (s : State) : Prop := ∃ k : Nat, s.audCtr = BitVec.ofNat 16 (k * s.cfg.audStride.toNat)

/-- The invariant of the machine. -/
structure State.Inv (s : State) : Prop where
  admissible : s.cfg.Admissible
  derived : s.AxisDerived
  onStride : s.CounterOnStride
  shaped : ∀ r, s.resp = some r → r.Shaped

/-- An outcome that is no model error: not the bounds error that R101 calls "a model error, not a hardware behaviour". -/
def NoModelError (o : Host.Outcome State Fault Refusal) : Prop := o ≠ .fault .fieldBounds

/-- The response an outcome leaves held; none of a stop. -/
def responseOf : Host.Outcome State Fault Refusal → Option Response
  | .next s => s.resp
  | .fault _ => none
  | .refused _ => none

end Sys2Proof.Machine
end

