-- ==== Sys2Proof/Certificates/Slice0/Obligations.lean ====
section
/-! DEFINITION. The statements for the provers, taken from the numbered rules of spec/. A response is written
`⟨status, value, flags, dout⟩`. -/

open Sys2Proof Sys2Proof.Machine

/- Encoding -/

/-- The words of R75's formats, written out from R71 to R73, decode to their commands. -/
def Obligations.DecodesWordsOfTheSpec : Prop :=
  decode 0x000000000000C801#64 = .ok (.axcor 200#8) ∧
  decode 0x0000000000000002#64 = .ok .decode ∧
  decode 0x0000000000000003#64 = .ok .encode ∧
  decode 0x0000000000000004#64 = .ok .decenc ∧
  decode 0x0000000000000005#64 = .ok .ldstate ∧
  decode 0x0000005634123F10#64 = .ok (.ctrl 63#8 0x12#8 0x34#8 0x56#8 0x00#8 0x00#8) ∧
  decode 0x00FF80FF00000410#64 = .ok (.ctrl 4#8 0x00#8 0x00#8 0xFF#8 0x80#8 0xFF#8) ∧
  decode 0x0000000000000011#64 = .ok .audio

/-- Decoding an encoded well-formed command gives it back, with every operand value (R70 to R75). -/
def Obligations.DecodeOfEncode : Prop :=
  ∀ i : Instr, WellFormed i → decode (encode i) = .ok i

/-- Every legal word has one meaning: it is the encoding of the command it decodes to, which is well-formed (R77). -/
def Obligations.EncodeOfDecode : Prop :=
  ∀ (w : Word64) (i : Instr), decode w = .ok i → encode i = w ∧ WellFormed i

/-- A word is legal exactly when a row of the opcode table matches it, and then exactly one row does (R75, R76). -/
def Obligations.LegalExactlyWhenOneTableRowMatches : Prop :=
  ∀ w : Word64,
    ((∃ i, decode w = .ok i) ↔ ∃ row ∈ opcodeTable, w &&& row.mask = row.pattern) ∧
    ∀ i, decode w = .ok i → i.row ∈ opcodeTable ∧ w &&& i.row.mask = i.row.pattern ∧
      ∀ row ∈ opcodeTable, w &&& row.mask = row.pattern → row = i.row

/-- R53: carried as bytes, byte k of a command word holds `CMD[8k+7:8k]`, so byte 0 holds `CMD[7:0]` and byte 7 `CMD[63:56]`;
decoding those bytes decodes the word and leaves what follows it. -/
def Obligations.CommandWordCarriedLittleEndian : Prop :=
  ∀ (w : Word64) (rest : List Byte),
    (wordBytes w).length = 8 ∧
    (∀ k, k < 8 → (wordBytes w)[k]? = some (w.extractLsb' (8 * k) 8)) ∧
    (∀ i, decode w = .ok i → decodeBytes (wordBytes w ++ rest) = .ok (i, rest)) ∧
    (∀ e, decode w = .error e → decodeBytes (wordBytes w ++ rest) = .error e)

/-- R80, R81: the assembler's word, the arithmetic sum of R80's table, is the encoding of the command named; operands out of
range are rejected; `hstop` is `ctrl` with both motors 0. -/
def Obligations.AssemblerAgreesWithEncoder : Prop :=
  (∀ a : Asm, a.inRange = true → ∃ i, a.instr = some i ∧ WellFormed i ∧ a.word = some (encode i)) ∧
  (∀ a : Asm, a.inRange = false → a.instr = none ∧ a.word = none) ∧
  (∀ poll r g b : Nat, (Asm.hstop poll r g b).word = (Asm.ctrl poll r g b 0 0).word) ∧
  (∀ poll r g b m0 m1 : Nat, (Asm.ctrl poll r g b m0 m1).inRange = true ↔
    poll ≤ 63 ∧ r ≤ 255 ∧ g ≤ 255 ∧ b ≤ 255 ∧ m0 ≤ 255 ∧ m1 ≤ 255)

/- The command port -/

/-- A step runs the decoded command: when the host side's next action presents a legal word, no response is held and `DIN`
fits, step is exec of the decoded instruction with that `DIN` (R5, R57, R79). The model's choices, in no rule: the host side's
actions as a list (log 4), the buffer emptied after the command (log 11), and the whole second clause: a table word (log 17)
placed by `withFetchWord` runs with the state's own `din` and with a held response taken (log 4). -/
def Obligations.StepRunsDecodedCommand : Prop :=
  (∀ (s t : State) (w : Word64) (din : List Byte) (rest : List HostAction) (i : Instr),
    s.cfg.Admissible → s.resp = none → s.inbox = .command w din :: rest → din.length ≤ s.cfg.dinMax.val →
    decode w = .ok i →
    step s = closeBuffers (exec i { s with din := din, inbox := rest }) ∧
    (exec i { s with din := din, inbox := rest } = .next t → step s = .next { t with din := [] })) ∧
  (∀ (s : State) (nbits w : Nat) (i : Instr),
    s.cfg.Admissible → s.din.length ≤ s.cfg.dinMax.val → decodeTableWord nbits w = some i →
    step (s.withFetchWord nbits w) = closeBuffers (exec i { s with resp := none }))

/-- R241 (with R76): a word that no row of the opcode table matches raises ILLEGAL_CMD; no state changes, `LSTATE_V` included. -/
def Obligations.IllegalCommandChangesNoState : Prop :=
  ∀ (s : State) (w : Word64) (din : List Byte) (rest : List HostAction),
    s.cfg.Admissible → s.resp = none → s.inbox = .command w din :: rest → din.length ≤ s.cfg.dinMax.val →
    (∀ row ∈ opcodeTable, w &&& row.mask ≠ row.pattern) →
    step s = .next { s with din := [], inbox := rest, resp := some ⟨.illegalCmd, 0x0000#16, 0x00#8, []⟩ }

/-- R51: a command whose `DIN` is longer than `DIN_MAX` is refused, whatever its word. -/
def Obligations.OverlongDinHasNoStep : Prop :=
  ∀ (s : State) (w : Word64) (din : List Byte) (rest : List HostAction),
    s.cfg.Admissible → s.resp = none → s.inbox = .command w din :: rest → s.cfg.dinMax.val < din.length →
    step s = .refused .dinTooLong

/-- R277: while a response is held no command is accepted, and taking the response frees the block and changes nothing else. That
a command presented, or nothing, while a response is held STOPS the run, with the fault `responseHeld`, is the model's form of
R277's stuck run (log 5, DEDUCED; S7): the rule itself says only that the block accepts no command and that a run in which the
host never takes the response is stuck. -/
def Obligations.HeldResponseBlocksUntilTaken : Prop :=
  ∀ (s : State) (r : Response), s.cfg.Admissible → s.resp = some r →
    (∀ w din rest, s.inbox = .command w din :: rest → step s = .fault .responseHeld) ∧
    (s.inbox = [] → step s = .fault .responseHeld) ∧
    (∀ rest, s.inbox = .takeResponse :: rest → step s = .next { s with resp := none, inbox := rest })

/-- No step drops or changes a held response but the host's taking of it: R277 says that the block never drops or truncates one.
Beside the taking, only a reset answers a next state while a response is held, and that the response outlives a reset is the
model's choice (log 7, DEDUCED, unsafe), not a sentence of R277. -/
def Obligations.HeldResponseIsNeverDropped : Prop :=
  ∀ (s t : State) (r : Response), step s = .next t → s.resp = some r →
    t.resp = some r ∨ (t.resp = none ∧ ∃ rest, s.inbox = .takeResponse :: rest)

/-- R5: an accepted command gives exactly one response. That it uses up its own action (log 4) and that its input buffer is emptied
after it (log 11) is the model's form of R50's "for the duration of one command". -/
def Obligations.AcceptedCommandGivesOneResponse : Prop :=
  ∀ (s t : State) (w : Word64) (din : List Byte) (rest : List HostAction),
    step s = .next t → s.inbox = .command w din :: rest →
    s.resp = none ∧ (∃ r, t.resp = some r) ∧ t.inbox = rest ∧ t.din = [] ∧ t.cfg = s.cfg

/-- R258: between commands the block is idle and its state persists; that a step of an idle block answers the same state is the model's
reading (log 18, DEDUCED). -/
def Obligations.IdleBlockKeepsItsState : Prop :=
  ∀ s : State, s.cfg.Admissible → s.inbox = [] → s.resp = none → step s = .next s

/- Reset -/

/-- R31 (with R120, R121): what reset leaves, under any configuration. -/
def Obligations.ResetLeavesTheSpecValues : Prop :=
  ∀ c : Cfg,
    (State.resetWith c).audCtr = 0x0000#16 ∧ (State.resetWith c).lstateV = false ∧ (State.resetWith c).cfg = c ∧
    ((State.resetWith c).cfgOk = true ↔
      0 < ((c.axisMax.val : Int) - c.axisMin.val - 4 * c.axisDz.val).tdiv 2) ∧
    ((State.resetWith c).cfgOk = true →
      (State.resetWith c).ax.center = ((c.axisMax.val : Int) + c.axisMin.val) / 2 ∧
      (State.resetWith c).ax.low = (State.resetWith c).ax.center - c.axisDz.val ∧
      (State.resetWith c).ax.high = (State.resetWith c).ax.center + c.axisDz.val ∧
      (State.resetWith c).ax.span = ((c.axisMax.val : Int) - c.axisMin.val - 4 * c.axisDz.val) / 2 ∧
      (State.resetWith c).ax.scale = 2 ^ 29 / (State.resetWith c).ax.span)

/-- R120: the derived constants of the reference configuration, which is admissible (R7). -/
def Obligations.ReferenceConfigurationDerives : Prop :=
  Cfg.rc.Admissible ∧ State.reset.cfgOk = true ∧ State.reset.ax = ⟨127, 122, 132, 117, 4588640⟩

/-- R270, R272: a reset presented by the host side, in one step; an inadmissible configuration is refused. That a held response
stays held is the model's choice (log 7, DEDUCED from R277). -/
def Obligations.ResetActionReloadsTheConfiguration : Prop :=
  ∀ (s : State) (c : Cfg) (rest : List HostAction), s.cfg.Admissible → s.inbox = .reset c :: rest →
    (c.Admissible → step s = .next { State.resetWith c with resp := s.resp, inbox := rest }) ∧
    (¬ c.Admissible → step s = .refused .inadmissibleCfg)

/-- R271: only reset loads `CFG` and recomputes `CFG_OK` and the derived constants; it also zeroes `AUD_CTR` and clears
`LSTATE_V`. No command changes them. -/
def Obligations.ConfigurationChangesOnlyAtReset : Prop :=
  (∀ s t : State, step s = .next t →
    (t.cfg = s.cfg ∧ t.cfgOk = s.cfgOk ∧ t.ax = s.ax) ∨
    ∃ c rest, s.inbox = .reset c :: rest ∧ t.cfg = c ∧ t.cfgOk = axisValid c ∧ t.ax = axisRegsOf c ∧
      t.audCtr = 0x0000#16 ∧ t.lstateV = false) ∧
  (∀ (i : Instr) (s t : State), exec i s = .next t → t.cfg = s.cfg ∧ t.cfgOk = s.cfgOk ∧ t.ax = s.ax)

/- Axis Corrector -/

/-- R125 (with R122, R123): AXCOR's result, the correction written out with exact integers and floor division, and
CONFIG_ERROR while `CFG_OK = 0`; nothing else changes. -/
def Obligations.AxcorResult : Prop :=
  ∀ (raw : Byte) (s : State),
    (s.cfgOk = true → exec (.axcor raw) s = .next { s with resp := some ⟨.ok,
      BitVec.ofInt 16 (max (-32767) (min 32767 (
        if (raw.toNat : Int) < s.ax.low then (s.ax.scale * ((raw.toNat : Int) - s.ax.low)) / 16384
        else if s.ax.high < (raw.toNat : Int) then (s.ax.scale * ((raw.toNat : Int) - s.ax.high)) / 16384
        else 0))), 0x00#8, []⟩ }) ∧
    (s.cfgOk = false → exec (.axcor raw) s = .next { s with resp := some ⟨.configError, 0x0000#16, 0x00#8, []⟩ })

/-- R122: `clamp` saturates to [-32767, 32767], and -32768 is never produced. -/
def Obligations.ClampSaturates : Prop :=
  (∀ x : Int, (x < -32767 → clamp x = -32767) ∧ (32767 < x → clamp x = 32767) ∧
    (-32767 ≤ x → x ≤ 32767 → clamp x = x)) ∧
  (∀ (a : AxisRegs) (raw : Byte), correctAxis a raw ≠ -32768 ∧ axisHalf a raw ≠ 0x8000#16)

/-- R124, which the spec marks as derived, dead band: under every valid configuration a sample corrects to 0 exactly when it lies in
[center - dz, center + dz]. -/
def Obligations.DeadBandIsExactlyAtRest : Prop :=
  ∀ (c : Cfg) (raw : Byte), axisValid c = true →
    (correctAxis (axisRegsOf c) raw = 0 ↔
      ((c.axisMax.val : Int) + c.axisMin.val) / 2 - c.axisDz.val ≤ raw.toNat ∧
      (raw.toNat : Int) ≤ ((c.axisMax.val : Int) + c.axisMin.val) / 2 + c.axisDz.val)

/-- R124, which the spec marks as derived, odd symmetry, before clamping: the value at center - d is -q or -q - 1, where q is the value at center + d. -/
def Obligations.CorrectionIsOddUpToRounding : Prop :=
  ∀ (c : Cfg) (d : Int), axisValid c = true → (c.axisDz.val : Int) < d →
    rescale (axisRegsOf c) ((axisRegsOf c).center - d) = - rescale (axisRegsOf c) ((axisRegsOf c).center + d) ∨
    rescale (axisRegsOf c) ((axisRegsOf c).center - d) = - rescale (axisRegsOf c) ((axisRegsOf c).center + d) - 1

/-- R27, R123, the sentences the spec marks as derived: the ranges of the derived constants under every valid configuration, and that the product of the correction
stays below 2^37 in magnitude for every raw sample. -/
def Obligations.AxisConstantsStayInRange : Prop :=
  ∀ c : Cfg, axisValid c = true →
    (1 ≤ (axisRegsOf c).center ∧ (axisRegsOf c).center ≤ 254) ∧
    (1 ≤ (axisRegsOf c).low ∧ (axisRegsOf c).low ≤ 254) ∧
    (1 ≤ (axisRegsOf c).high ∧ (axisRegsOf c).high ≤ 254) ∧
    (1 ≤ (axisRegsOf c).span ∧ (axisRegsOf c).span ≤ 127) ∧
    (4227330 ≤ (axisRegsOf c).scale ∧ (axisRegsOf c).scale ≤ 536870912) ∧
    (∀ raw : Byte,
      |(axisRegsOf c).scale * ((raw.toNat : Int) - (axisRegsOf c).low)| < 2 ^ 37 ∧
      |(axisRegsOf c).scale * ((raw.toNat : Int) - (axisRegsOf c).high)| < 2 ^ 37)

/- Report Decoder -/

/-- R152 to R157, R183: DECODE and DECENC of an acceptable report complete with OK. The statement says every field of the
LogicalState latched, bit by bit for the bitmask, the sequence counter in `VALUE`, the flag byte, and that nothing else changes. -/
def Obligations.DecodeAcceptsReport : Prop :=
  ∀ (s : State) (dp : Byte), s.cfg.Admissible → s.cfgOk = true → s.cfg.base.val + 10 ≤ s.din.length →
    (s.cfg.checkTag = true → s.din[0]? = some s.cfg.inTag) →
    s.din[s.cfg.base.val + s.cfg.offBtn0.val]? = some dp →
    (dp.toNat % 16 < 8 ∨ s.cfg.dpadPolicy = .none) →
    ∃ (l : LogicalState) (seq : Half) (flags : Byte) (seed : Half),
      exec .decode s = .next { s with lstate := some l, resp := some ⟨.ok, seq, flags, []⟩ } ∧
      exec .decenc s = .next { s with lstate := some l, resp := some ⟨.ok, seq, flags, wire l⟩ } ∧
      s.din[s.cfg.base.val + s.cfg.offLt.val]? = some l.lt ∧
      s.din[s.cfg.base.val + s.cfg.offRt.val]? = some l.rt ∧
      (∀ k : Fin 4, ∃ raw, s.din[s.cfg.base.val + (s.cfg.offAx[k]).val]? = some raw ∧
        l.ax[k] = BitVec.ofInt 16 (correctAxis s.ax raw)) ∧
      (∃ misc, s.din[s.cfg.base.val + s.cfg.offMisc.val]? = some misc ∧ seq = BitVec.ofNat 16 (misc.toNat / 4)) ∧
      flags = (if dp.toNat % 16 < 8 then 0x00#8 else 0x01#8) ∧
      (∀ n : Fin 8, dp.toNat % 16 = n.val → seed.toNat = (s.cfg.dpadTable[n]).toNat) ∧
      (8 ≤ dp.toNat % 16 → seed = 0x0000#16) ∧
      (∀ j, j < 16 → (l.btn.getLsbD j = true ↔
        seed.getLsbD j = true ∨
        ∃ e ∈ s.cfg.mapEntries, e.mask.getLsbD j = true ∧
          ∃ b, s.din[s.cfg.base.val + e.off.val]? = some b ∧ b.getLsbD e.bit.val = true))

/-- R249, items 2 to 5, and R25: the errors of DECODE and DECENC in their order of priority; each clears `LSTATE_V`, empties the
response and changes nothing else. -/
def Obligations.DecodeErrorsInPriorityOrder : Prop :=
  ∀ (i : Instr) (s : State), (i = .decode ∨ i = .decenc) →
    (s.cfgOk = false →
      exec i s = .next { s with lstate := none, resp := some ⟨.configError, 0x0000#16, 0x00#8, []⟩ }) ∧
    (s.cfgOk = true → s.din.length < s.cfg.base.val + 10 →
      exec i s = .next { s with lstate := none, resp := some ⟨.decodeShort, 0x0000#16, 0x00#8, []⟩ }) ∧
    (s.cfgOk = true → s.cfg.base.val + 10 ≤ s.din.length → s.cfg.checkTag = true → s.din[0]? ≠ some s.cfg.inTag →
      exec i s = .next { s with lstate := none, resp := some ⟨.decodeBadTag, 0x0000#16, 0x00#8, []⟩ }) ∧
    (∀ dp : Byte, s.cfgOk = true → s.cfg.base.val + 10 ≤ s.din.length →
      (s.cfg.checkTag = true → s.din[0]? = some s.cfg.inTag) →
      s.din[s.cfg.base.val + s.cfg.offBtn0.val]? = some dp → 8 ≤ dp.toNat % 16 → s.cfg.dpadPolicy = .reject →
      exec i s = .next { s with lstate := none, resp := some ⟨.decodeDpad, 0x0000#16, 0x00#8, []⟩ })

/-- R183: DECENC is DECODE then ENCODE as one command. With an OK decode it answers the decode's state and response, its output
the packet ENCODE gives from that state; with a failing one it is DECODE. -/
def Obligations.DecencIsDecodeThenEncode : Prop :=
  ∀ s t : State, exec .decenc s = .next t →
    ∃ (m : State) (r : Response), exec .decode s = .next m ∧ m.resp = some r ∧
      (r.status ≠ .ok → t = m) ∧
      (r.status = .ok → ∃ (e : State) (p : Response), exec .encode m = .next e ∧ e.resp = some p ∧ p.status = .ok ∧
        t = { m with resp := some { r with dout := p.dout } })

/-- R158, and R275, which the spec marks as derived: after a failed DECODE or DECENC an ENCODE raises NO_STATE, whatever was latched before; a good state is not
sent again. -/
def Obligations.FailedDecodeWithholdsPacket : Prop :=
  ∀ (i : Instr) (s m : State) (r : Response), (i = .decode ∨ i = .decenc) → exec i s = .next m → m.resp = some r →
    r.status ≠ .ok → r.dout = [] ∧ ∀ (held : Option Response) (din : List Byte) (rest : List HostAction),
      exec .encode { m with resp := held, din := din, inbox := rest } =
        .next { m with resp := some ⟨.noState, 0x0000#16, 0x00#8, []⟩, din := din, inbox := rest }

/-- R151: a report's bytes from `BASE + 10` on are ignored: DECODE and DECENC answer alike on two reports that agree on their
first `BASE + 10` bytes. -/
def Obligations.ReportTailIsIgnored : Prop :=
  ∀ (i : Instr) (s t : State) (din' : List Byte), (i = .decode ∨ i = .decenc) → s.cfg.Admissible →
    s.cfg.base.val + 10 ≤ s.din.length → s.cfg.base.val + 10 ≤ din'.length →
    s.din.take (s.cfg.base.val + 10) = din'.take (s.cfg.base.val + 10) →
    exec i s = .next t → exec i { s with din := din' } = .next { t with din := din' }

/-- R153's sentence that the spec marks as derived: under the reference configuration (log 1) every bitmask bit has exactly one
source. Bits 15:4 are each in the mask of exactly one map entry and in no dpad seed; bits 3:0 are in no mask, and each of them is
set by the dpad seed of some nibble in 0..7 (R152). -/
def Obligations.ReferenceBitmaskHasOneSourcePerBit : Prop :=
  (∀ j : Fin 16, (Cfg.rc.mapEntries.filter (fun e => e.mask.getLsbD j.val)).length = if j.val < 4 then 0 else 1) ∧
  (∀ j, j < 4 → ∃ (n : Fin 16) (seed : Half) (dpadNone : Bool), n.val < 8 ∧
    dpadSeed Cfg.rc n = .ok (seed, dpadNone) ∧ seed.getLsbD j = true) ∧
  (∀ n : Fin 16, ∃ (seed : Half) (dpadNone : Bool), dpadSeed Cfg.rc n = .ok (seed, dpadNone) ∧
    ∀ j, 4 ≤ j → seed.getLsbD j = false)

/-- R159, R160: LDSTATE of a 12-byte image completes with OK and latches its fields, little-endian; nothing else changes. -/
def Obligations.LdstateLatchesImage : Prop :=
  ∀ (s : State) (b0 b1 b2 b3 b4 b5 b6 b7 b8 b9 b10 b11 : Byte),
    s.din = [b0, b1, b2, b3, b4, b5, b6, b7, b8, b9, b10, b11] →
    exec .ldstate s = .next { s with
      lstate := some ⟨b1 ++ b0, b2, b3, #v[b5 ++ b4, b7 ++ b6, b9 ++ b8, b11 ++ b10]⟩
      resp := some ⟨.ok, 0x0000#16, 0x00#8, []⟩ }

/-- R247 (with R217): BAD_LENGTH, and no state changes; in particular `AUD_CTR` is not advanced. -/
def Obligations.BadLengthChangesNoState : Prop :=
  ∀ s : State,
    (s.din.length ≠ 12 →
      exec .ldstate s = .next { s with resp := some ⟨.badLength, 0x0000#16, 0x00#8, []⟩ }) ∧
    (s.din.length ≠ s.cfg.audN.val →
      exec .audio s = .next { s with resp := some ⟨.badLength, 0x0000#16, 0x00#8, []⟩ })

/- Wire Packet Encoder -/

/-- R180, R181: ENCODE's 13 bytes, or NO_STATE; no state changes. -/
def Obligations.EncodeEmitsWirePacket : Prop :=
  ∀ s : State,
    (∀ l, s.lstate = some l → exec .encode s = .next { s with resp := some ⟨.ok, 0x0000#16, 0x00#8,
      [0x01#8, l.btn.extractLsb' 0 8, l.btn.extractLsb' 8 8, l.lt, l.rt,
       l.ax[0].extractLsb' 0 8, l.ax[0].extractLsb' 8 8, l.ax[1].extractLsb' 0 8, l.ax[1].extractLsb' 8 8,
       l.ax[2].extractLsb' 0 8, l.ax[2].extractLsb' 8 8, l.ax[3].extractLsb' 0 8, l.ax[3].extractLsb' 8 8]⟩ }) ∧
    (s.lstate = none → exec .encode s = .next { s with resp := some ⟨.noState, 0x0000#16, 0x00#8, []⟩ })

/-- R159: the LDSTATE image is bytes 1..12 of the wire packet: an ENCODE after an LDSTATE emits 0x01 and the image. -/
def Obligations.LoadedImageIsThePacket : Prop :=
  ∀ (s m : State) (held : Option Response) (din : List Byte) (rest : List HostAction),
    s.din.length = 12 → exec .ldstate s = .next m →
    exec .encode { m with resp := held, din := din, inbox := rest } =
      .next { m with resp := some ⟨.ok, 0x0000#16, 0x00#8, 0x01#8 :: s.din⟩, din := din, inbox := rest }

/-- R184, which the spec marks as derived: the end-to-end example under RC (log 1), presented to the machine after reset, in one step. -/
def Obligations.EndToEndExampleUnderReference : Prop :=
  responseOf (step { State.reset with inbox := [.command 0x0000000000000004#64
      [0x11#8, 0x00#8, 0x00#8, 0x00#8, 0xFF#8, 0x80#8, 0x80#8, 0x80#8, 0x00#8, 0x00#8, 0x0A#8, 0x14#8]] }) =
    some ⟨.ok, 0x0000#16, 0x00#8,
      [0x01#8, 0x01#8, 0x80#8, 0x0A#8, 0x14#8, 0x01#8, 0x80#8, 0xFF#8, 0x7F#8, 0x00#8, 0x00#8, 0x00#8, 0x00#8]⟩

/- Control Frame Builder -/

/-- R205 to R209, R215: CTRL completes with OK in every state of an admissible configuration; its frame byte by byte; nothing
else changes. -/
def Obligations.ControlFrameLayout : Prop :=
  ∀ (poll r g b m0 m1 : Byte) (s : State), s.cfg.Admissible →
    ∃ F : List Byte,
      exec (.ctrl poll r g b m0 m1) s = .next { s with resp := some ⟨.ok, 0x0000#16, 0x00#8, F⟩ } ∧
      F.length = s.cfg.ctrlLen.val + 4 ∧
      F[0]? = some s.cfg.ctrlTag ∧
      F[s.cfg.offMode.val]? = some (0xC0#8 ||| poll) ∧
      F[s.cfg.offFlags.val]? = some s.cfg.ctrlFlags ∧
      F[s.cfg.offM0.val]? = some m0 ∧ F[s.cfg.offM1.val]? = some m1 ∧
      F[s.cfg.offR.val]? = some r ∧ F[s.cfg.offG.val]? = some g ∧ F[s.cfg.offB.val]? = some b ∧
      (∀ k : U8, k.val < s.cfg.ctrlLen.val → k ≠ 0 → k ∉ s.cfg.ctrlOffsets → F[k.val]? = s.cfg.ctrlTemplate[k.val]?) ∧
      F.drop s.cfg.ctrlLen.val = u32le (crc32 (s.cfg.crcPrefix :: F.take s.cfg.ctrlLen.val))

/-- R206: bits 7:6 of the emitted mode/poll-rate byte are 1 and bits 5:0 equal `POLL`, for every well-formed CTRL; a wider `POLL`
cannot be encoded. -/
def Obligations.ModeByteCarriesPollRate : Prop :=
  (∀ (poll r g b m0 m1 : Byte) (s t : State) (rsp : Response), s.cfg.Admissible → WellFormed (.ctrl poll r g b m0 m1) →
    exec (.ctrl poll r g b m0 m1) s = .next t → t.resp = some rsp →
    ∃ mode, rsp.dout[s.cfg.offMode.val]? = some mode ∧ mode.toNat / 64 = 3 ∧ mode.toNat % 64 = poll.toNat) ∧
  (∀ (w : Word64) (poll r g b m0 m1 : Byte), 64 ≤ poll.toNat → decode w ≠ .ok (.ctrl poll r g b m0 m1))

/-- R204, which the spec marks as derived from R202: for every frame CTRL or AUDIO emits, the trailer read little-endian is the CRC of the prefix and the frame less its last
four bytes; without the prefix the equality fails for the RC frame of R215's example. -/
def Obligations.FrameCrcRoundTrip : Prop :=
  (∀ (i : Instr) (s t : State) (r : Response),
    (i = .audio ∨ ∃ poll red g b m0 m1, i = .ctrl poll red g b m0 m1) →
    exec i s = .next t → t.resp = some r → r.status = .ok →
    4 ≤ r.dout.length ∧
    rd32le r.dout (r.dout.length - 4) = some (crc32 (s.cfg.crcPrefix :: r.dout.take (r.dout.length - 4)))) ∧
  (∃ (t : State) (r : Response), exec (.ctrl 0x00#8 0xFF#8 0x00#8 0x00#8 0x00#8 0x00#8) State.reset = .next t ∧
    t.resp = some r ∧ rd32le r.dout (r.dout.length - 4) = some 0x162B6C69#32 ∧
    crc32 (r.dout.take (r.dout.length - 4)) ≠ 0x162B6C69#32)

/-- R201, which the spec marks as its own derivation from R200: the check values of the CRC. -/
def Obligations.CrcCheckValues : Prop :=
  crc32 [0x31#8, 0x32#8, 0x33#8, 0x34#8, 0x35#8, 0x36#8, 0x37#8, 0x38#8, 0x39#8] = 0xCBF43926#32 ∧
  crc32 [] = 0x00000000#32 ∧ crc32 [0xA2#8] = 0xEADA2D49#32 ∧ crc32 [0x00#8] = 0xD202EF8D#32

/-- R210 to R213, R218: AUDIO of an exact payload completes with OK; the frame byte by byte, the counter's value before the
increment in header and `VALUE`, the counter advanced modulo 2^16; nothing else changes. -/
def Obligations.AudioFrameLayout : Prop :=
  ∀ s : State, s.cfg.Admissible → s.din.length = s.cfg.audN.val →
    ∃ F : List Byte,
      exec .audio s = .next { s with
        audCtr := BitVec.ofNat 16 (s.audCtr.toNat + s.cfg.audStride.toNat)
        resp := some ⟨.ok, s.audCtr, 0x00#8, F⟩ } ∧
      F.length = s.cfg.audN.val + 14 ∧
      F[s.cfg.offCtr.val]? = some (s.audCtr.extractLsb' 0 8) ∧
      F[s.cfg.offCtr.val + 1]? = some (s.audCtr.extractLsb' 8 8) ∧
      (∀ k, k < 6 → k ≠ s.cfg.offCtr.val → k ≠ s.cfg.offCtr.val + 1 → F[k]? = s.cfg.audHdr.toList[k]?) ∧
      (∀ k, k < s.cfg.audN.val → F[6 + k]? = s.din[k]?) ∧
      (∀ k, k < 4 → F[6 + s.cfg.audN.val + k]? = s.cfg.audPad.toList[k]?) ∧
      F.drop (s.cfg.audN.val + 10) = u32le (crc32 (s.cfg.crcPrefix :: F.take (s.cfg.audN.val + 10)))

/-- R219, R23: an AUDIO that completes with OK advances `AUD_CTR` exactly once, by the stride, and reports its value before; no
other command, and no AUDIO that raises, changes it. -/
def Obligations.OnlySuccessfulAudioAdvancesCounter : Prop :=
  ∀ (i : Instr) (s t : State), exec i s = .next t → ∃ r, t.resp = some r ∧
    ((i = .audio ∧ r.status = .ok) → t.audCtr = s.audCtr + s.cfg.audStride ∧ r.value = s.audCtr) ∧
    (¬ (i = .audio ∧ r.status = .ok) → t.audCtr = s.audCtr)

/-- R276, which the spec marks as derived: `n` advances bring the counter back to its value exactly when `n` is a multiple of `2^16 / gcd(AUD_STRIDE, 2^16)`. -/
def Obligations.AudioCounterPeriod : Prop :=
  ∀ (s : State) (n : Nat),
    (advanceCounter^[n] s).audCtr = s.audCtr ↔ (2 ^ 16 / Nat.gcd s.cfg.audStride.toNat (2 ^ 16)) ∣ n

/-- R60, R219: any number of AUDIO commands presented in a row, each response taken, runs to completion; the k-th of them reports
the counter's start value plus k strides, and at the end the counter has advanced once for each. -/
def Obligations.AudioSequenceAdvancesOncePerFrame : Prop :=
  ∀ (s : State) (payloads : List (List Byte)) (rest : List HostAction),
    s.cfg.Admissible → s.resp = none → s.din = [] → (∀ p ∈ payloads, p.length = s.cfg.audN.val) →
    s.inbox = payloads.flatMap (fun p => [.command 0x0000000000000011#64 p, .takeResponse]) ++ rest →
    core.run (2 * payloads.length) s =
      .next { s with audCtr := s.audCtr + BitVec.ofNat 16 payloads.length * s.cfg.audStride, inbox := rest } ∧
    (∀ k, k < payloads.length → ∃ (t : State) (r : Response), core.run (2 * k + 1) s = .next t ∧ t.resp = some r ∧
      r.status = .ok ∧ r.value = s.audCtr + BitVec.ofNat 16 k * s.cfg.audStride)

/- Whole-machine rules -/

/-- R55 (3) and R20: what a command leaves unchanged. `CFG`, `CFG_OK`, the axis constants, `DIN` and the host side's actions always;
`LSTATE` unless the command is DECODE, DECENC or LDSTATE; `AUD_CTR` unless it is AUDIO. -/
def Obligations.CommandFrame : Prop :=
  ∀ (i : Instr) (s t : State), exec i s = .next t →
    t.cfg = s.cfg ∧ t.cfgOk = s.cfgOk ∧ t.ax = s.ax ∧ t.din = s.din ∧ t.inbox = s.inbox ∧
    (i ≠ .decode → i ≠ .decenc → i ≠ .ldstate → t.lstate = s.lstate) ∧
    (i ≠ .audio → t.audCtr = s.audCtr)

/-- R25: who sets and who clears `LSTATE_V`. A successful DECODE, DECENC or LDSTATE sets it; a raising DECODE or DECENC clears it;
every other command, and a raising LDSTATE, leaves `LSTATE` and `LSTATE_V` alone. -/
def Obligations.LatchValidity : Prop :=
  ∀ (i : Instr) (s t : State) (r : Response), exec i s = .next t → t.resp = some r →
    ((i = .decode ∨ i = .decenc ∨ i = .ldstate) → r.status = .ok → t.lstateV = true) ∧
    ((i = .decode ∨ i = .decenc) → r.status ≠ .ok → t.lstateV = false) ∧
    ((¬ (i = .decode ∨ i = .decenc ∨ i = .ldstate)) → t.lstate = s.lstate) ∧
    (i = .ldstate → r.status ≠ .ok → t.lstate = s.lstate)

/-- R55 (4): every command but AUDIO is idempotent: repeated from the state it leaves, it gives the same response and the same
state. -/
def Obligations.CommandsButAudioAreIdempotent : Prop :=
  ∀ (i : Instr) (s t : State), i ≠ .audio → exec i s = .next t → exec i t = .next t

/-- R240: a command ends with OK or with a status the table gives it, and an error response has `VALUE = 0`, `FLAGS = 0` and an
empty `DOUT`; the codes. -/
def Obligations.ErrorResponsesAreEmpty : Prop :=
  (∀ (i : Instr) (s t : State), exec i s = .next t → ∃ r, t.resp = some r ∧
    (r.status = .ok ∨ r.status ∈ mayRaise i) ∧
    (r.status ≠ .ok → r.value = 0x0000#16 ∧ r.flags = 0x00#8 ∧ r.dout = [])) ∧
  (Status.code .ok = 0x00#8 ∧ Status.code .illegalCmd = 0x01#8 ∧ Status.code .configError = 0x02#8 ∧
    Status.code .decodeShort = 0x03#8 ∧ Status.code .decodeBadTag = 0x04#8 ∧ Status.code .decodeDpad = 0x05#8 ∧
    Status.code .noState = 0x06#8 ∧ Status.code .badLength = 0x07#8)

/-- R29: `FLAGS` bits 7:1 are always 0, and bit 0 is set exactly by a DECODE or DECENC that completes on a dpad nibble in 8..15 under
`DPAD_POLICY = NONE`. -/
def Obligations.FlagsOnlySayDpadNone : Prop :=
  ∀ (i : Instr) (s t : State) (r : Response), exec i s = .next t → t.resp = some r →
    (∀ j, 1 ≤ j → r.flags.getLsbD j = false) ∧
    (r.flags.getLsbD 0 = true ↔
      (i = .decode ∨ i = .decenc) ∧ r.status = .ok ∧ s.cfg.dpadPolicy = .none ∧
      ∃ dp, s.din[s.cfg.base.val + s.cfg.offBtn0.val]? = some dp ∧ 8 ≤ dp.toNat % 16)

/-- R50: AXCOR, ENCODE and CTRL ignore the contents and the length of `DIN`. -/
def Obligations.DinIgnoredByCommandsThatDoNotReadIt : Prop :=
  ∀ (i : Instr) (s t : State) (din' : List Byte), i ≠ .decode → i ≠ .decenc → i ≠ .ldstate → i ≠ .audio →
    exec i s = .next t → exec i { s with din := din' } = .next { t with din := din' }

/-- R242: while `CFG_OK = 0`, AXCOR, DECODE and DECENC raise CONFIG_ERROR (DECODE and DECENC also clear `LSTATE_V`); CTRL, AUDIO,
LDSTATE and ENCODE do not depend on `CFG_OK` or the axis constants. -/
def Obligations.ConfigErrorStopsOnlyAxisCommands : Prop :=
  (∀ s : State, s.cfgOk = false →
    (∀ raw, exec (.axcor raw) s = .next { s with resp := some ⟨.configError, 0x0000#16, 0x00#8, []⟩ }) ∧
    exec .decode s = .next { s with lstate := none, resp := some ⟨.configError, 0x0000#16, 0x00#8, []⟩ } ∧
    exec .decenc s = .next { s with lstate := none, resp := some ⟨.configError, 0x0000#16, 0x00#8, []⟩ }) ∧
  (∀ (i : Instr) (s t : State) (ok : Bool) (ax : AxisRegs), (∀ raw, i ≠ .axcor raw) → i ≠ .decode → i ≠ .decenc →
    exec i s = .next t → exec i { s with cfgOk := ok, ax := ax } = .next { t with cfgOk := ok, ax := ax })

/-- R101 (a sentence the spec marks as derived), R10: under an admissible configuration every command completes with a response, on every `DIN` and in every state: no
bounds error, no fault, no refusal. -/
def Obligations.EveryCommandAnswers : Prop :=
  ∀ (i : Instr) (s : State), s.cfg.Admissible → ∃ (t : State) (r : Response), exec i s = .next t ∧ t.resp = some r

/-- The invariant holds right after reset, under every admissible configuration, RC among them. -/
def Obligations.InvariantHoldsAtReset : Prop :=
  (∀ c : Cfg, c.Admissible → (State.resetWith c).Inv) ∧ State.reset.Inv

/-- Every step keeps the invariant: the configuration admissible, `CFG_OK` and the axis constants as reset derived them (R27),
`AUD_CTR` a whole number of strides from 0 modulo 2^16 (R276), every held response of R240's and R29's shape. -/
def Obligations.StepKeepsInvariant : Prop :=
  ∀ s t : State, s.Inv → step s = .next t → t.Inv

/-- A step stops in three cases only: a response left untaken, whose stop, with a command presented or with nothing more from the host
side, is the model's form of R277's stuck run (log 5, DEDUCED); a `DIN` over `DIN_MAX` (R51; log 8); a reset with an inadmissible
configuration (R7; log 8). The bounds error of R101 is never reached. -/
def Obligations.StepStopsOnlyWhereTheSpecSays : Prop :=
  ∀ s : State, s.Inv →
    (∀ f, step s = .fault f → f = .responseHeld ∧ (∃ r, s.resp = some r) ∧
      (s.inbox = [] ∨ ∃ w din rest, s.inbox = .command w din :: rest)) ∧
    (∀ q, step s = .refused q →
      (q = .dinTooLong ∧ ∃ w din rest, s.inbox = .command w din :: rest ∧ s.cfg.dinMax.val < din.length) ∨
      (q = .inadmissibleCfg ∧ ∃ c rest, s.inbox = .reset c :: rest ∧ ¬ c.Admissible)) ∧
    NoModelError (step s)

/- Field Codec -/

/-- R102: `setIf` sets the mask's bits when the condition holds, and never clears a bit; two entries with the same mask OR together;
the rule's examples. -/
def Obligations.SetIfNeverClearsABit : Prop :=
  (∀ (v m : Half) (c : Bool), setIf v m c = (if c then v ||| m else v) ∧
    (∀ j, v.getLsbD j = true → (setIf v m c).getLsbD j = true) ∧
    (∀ j, c = true → m.getLsbD j = true → (setIf v m c).getLsbD j = true)) ∧
  (∀ (v m : Half) (c d : Bool), setIf (setIf v m c) m d = setIf v m (c || d)) ∧
  setIf 0x0001#16 0x8000#16 true = 0x8001#16 ∧ setIf 0x0001#16 0x8000#16 false = 0x0001#16

/-- R100, R101: `bit` gives bit `k` of byte `i`, bit 0 the least significant, and no value out of range; the rule's examples. -/
def Obligations.BitReadsOneBitOrNothing : Prop :=
  (∀ (data : List Byte) (i k : Nat),
    ((i < data.length ∧ k ≤ 7) → ∃ b, data[i]? = some b ∧ bitAt data i k = some (b.toNat / 2 ^ k % 2 == 1)) ∧
    ((data.length ≤ i ∨ 7 < k) → bitAt data i k = none)) ∧
  bitAt [0x00#8, 0x80#8] 1 7 = some true ∧ bitAt [0x00#8, 0x80#8] 1 6 = some false

/-- R52, R104: packing and unpacking are little-endian and inverse: the low byte stands at the lower index. -/
def Obligations.PackingIsLittleEndian : Prop :=
  (∀ (v : Half) (a b : List Byte), rd16le (a ++ u16le v ++ b) a.length = some v) ∧
  (∀ lo hi : Byte, rd16le [lo, hi] 0 = some (BitVec.ofNat 16 (lo.toNat + 256 * hi.toNat)) ∧
    u16le (BitVec.ofNat 16 (lo.toNat + 256 * hi.toNat)) = [lo, hi]) ∧
  (∀ (v : Word32) (a b : List Byte), rd32le (a ++ u32le v ++ b) a.length = some v)

/-- R60: in a run of AUDIO commands, each response taken, two frames carry distinct counters when their places in the run differ by
less than the counter's period. The period, `2^16 / gcd(AUD_STRIDE, 2^16)`, is R276's, which the spec marks as derived; beyond it R60 says
"modulo 2^16 wrap", and under a stride of 0 it is 1, so that nothing is claimed. -/
def Obligations.AudioFramesWithinPeriodAreDistinct : Prop :=
  ∀ (s : State) (payloads : List (List Byte)) (rest : List HostAction),
    s.cfg.Admissible → s.resp = none → s.din = [] → (∀ p ∈ payloads, p.length = s.cfg.audN.val) →
    s.inbox = payloads.flatMap (fun p => [.command 0x0000000000000011#64 p, .takeResponse]) ++ rest →
    ∀ j k, j < k → k < payloads.length → k - j < 2 ^ 16 / Nat.gcd s.cfg.audStride.toNat (2 ^ 16) →
      ∃ (t u : State) (r q : Response), core.run (2 * j + 1) s = .next t ∧ t.resp = some r ∧ r.status = .ok ∧
        core.run (2 * k + 1) s = .next u ∧ u.resp = some q ∧ q.status = .ok ∧ r.value ≠ q.value
end

