-- ==== Sys2Proof/Laws/Encoding.lean ====
section
/-! SUPPORT. The encodings and the fields of a command word as numbers, and the cases of the decoder. -/

namespace Sys2Proof

theorem toNat_append_eq {n m : Nat} (x : BitVec n) (y : BitVec m) :
    (x ++ y).toNat = x.toNat * 2 ^ m + y.toNat := by
  rw [BitVec.toNat_append, ← Nat.shiftLeft_add_eq_or_of_lt y.isLt, Nat.shiftLeft_eq]

theorem toNat_encodeN (op : Byte) : (encodeN op).toNat = op.toNat := by
  have e : (encodeN op).toNat = (0#56 ++ op).toNat := rfl
  rw [e, toNat_append_eq]
  simp

theorem toNat_encodeA (op raw : Byte) : (encodeA op raw).toNat = op.toNat + 256 * raw.toNat := by
  have e : (encodeA op raw).toNat = (0#48 ++ raw ++ op).toNat := rfl
  rw [e]
  simp only [toNat_append_eq]
  simp
  omega

theorem toNat_encodeC (op poll r g b m0 m1 : Byte) :
    (encodeC op poll r g b m0 m1).toNat =
      op.toNat + 256 * poll.toNat + 65536 * r.toNat + 16777216 * g.toNat + 4294967296 * b.toNat +
        1099511627776 * m0.toNat + 281474976710656 * m1.toNat := by
  have e : (encodeC op poll r g b m0 m1).toNat = (0#8 ++ m1 ++ m0 ++ b ++ g ++ r ++ poll ++ op).toNat := rfl
  rw [e]
  simp only [toNat_append_eq]
  simp
  omega

theorem toNat_wordOfBytes (b0 b1 b2 b3 b4 b5 b6 b7 : Byte) :
    (wordOfBytes b0 b1 b2 b3 b4 b5 b6 b7).toNat =
      b0.toNat + 256 * b1.toNat + 65536 * b2.toNat + 16777216 * b3.toNat + 4294967296 * b4.toNat +
        1099511627776 * b5.toNat + 281474976710656 * b6.toNat + 72057594037927936 * b7.toNat := by
  have e : (wordOfBytes b0 b1 b2 b3 b4 b5 b6 b7).toNat =
    (b7 ++ b6 ++ b5 ++ b4 ++ b3 ++ b2 ++ b1 ++ b0).toNat := rfl
  rw [e]
  simp only [toNat_append_eq]
  omega

/-- A field of a word as a number. -/
theorem toNat_field (w : Word64) (lo len : Nat) : (w.extractLsb' lo len).toNat = w.toNat / 2 ^ lo % 2 ^ len := by
  simp [BitVec.extractLsb'_toNat, Nat.shiftRight_eq_div_pow]

theorem toNat_opField (w : Word64) : (opField w).toNat = w.toNat % 256 := by
  rw [opField, toNat_field]
  simp

theorem toNat_pollField (w : Word64) : (pollField w).toNat = w.toNat / 256 % 64 := by
  have h := toNat_field w 8 6
  rw [pollField, BitVec.toNat_setWidth, h]
  omega

/-- The two reserved-bit tests of the decoder, as numbers. -/
theorem field_eq_zero (w : Word64) (lo len : Nat) :
    w.extractLsb' lo len = 0 ↔ w.toNat / 2 ^ lo % 2 ^ len = 0 := by
  rw [← toNat_field]
  constructor
  · intro h; rw [h]; rfl
  · intro h; exact BitVec.eq_of_toNat_eq (by simpa using h)

theorem opField_eq (w : Word64) (n : Nat) (h : n < 256) : opField w = BitVec.ofNat 8 n ↔ w.toNat % 256 = n := by
  rw [← toNat_opField]
  constructor
  · intro e; rw [e]; simp; omega
  · intro e; exact BitVec.eq_of_toNat_eq (by simp [e]; omega)

/-- Two words are equal when their bits are. -/
theorem eq_iff_bits {n : Nat} (x y : BitVec n) : x = y ↔ ∀ j, j < n → x.getLsbD j = y.getLsbD j :=
  ⟨fun h => by simp [h], fun h => BitVec.eq_of_getLsbD_eq (fun j hj => h j hj)⟩

/-- A field of a word, bit by bit. -/
theorem field_eq_iff_bits (w : Word64) (lo len : Nat) (p : BitVec len) :
    w.extractLsb' lo len = p ↔ ∀ j, j < len → w.getLsbD (lo + j) = p.getLsbD j := by
  rw [eq_iff_bits]
  exact ⟨fun h j hj => by simpa [hj] using h j hj, fun h j hj => by simpa [hj] using h j hj⟩

/-- A row's match, `CMD & mask == match`, bit by bit. -/
theorem mask_eq_iff_bits (w m p : Word64) :
    w &&& m = p ↔ ∀ j, j < 64 → (w.getLsbD j && m.getLsbD j) = p.getLsbD j := by
  rw [eq_iff_bits]; simp

/-- The bytes of a word, put together again (R53). -/
theorem wordOfBytes_wordBytes (w : Word64) :
    wordOfBytes (w.extractLsb' 0 8) (w.extractLsb' 8 8) (w.extractLsb' 16 8) (w.extractLsb' 24 8)
      (w.extractLsb' 32 8) (w.extractLsb' 40 8) (w.extractLsb' 48 8) (w.extractLsb' 56 8) = w := by
  apply BitVec.eq_of_toNat_eq
  rw [toNat_wordOfBytes]
  simp only [toNat_field]
  have := w.isLt
  omega

/-- What the decoder accepts: one case per command, with its reserved bits zero and its operands read from their fields. -/
theorem decode_ok_cases {w : Word64} {i : Instr} (h : decode w = .ok i) :
    (opField w = 0x01#8 ∧ w.extractLsb' 16 48 = 0 ∧ i = .axcor (rawField w)) ∨
    (opField w = 0x02#8 ∧ w.extractLsb' 8 56 = 0 ∧ i = .decode) ∨
    (opField w = 0x03#8 ∧ w.extractLsb' 8 56 = 0 ∧ i = .encode) ∨
    (opField w = 0x04#8 ∧ w.extractLsb' 8 56 = 0 ∧ i = .decenc) ∨
    (opField w = 0x05#8 ∧ w.extractLsb' 8 56 = 0 ∧ i = .ldstate) ∨
    (opField w = 0x10#8 ∧ (w.extractLsb' 56 8 = 0 ∧ w.extractLsb' 14 2 = 0) ∧
      i = .ctrl (pollField w) (rField w) (gField w) (bField w) (m0Field w) (m1Field w)) ∨
    (opField w = 0x11#8 ∧ w.extractLsb' 8 56 = 0 ∧ i = .audio) := by
  unfold decode decodeA decodeN decodeC at h
  repeat' split at h
  all_goals first
    | (cases h; done)
    | (cases h; simp_all)

end Sys2Proof
end

