-- ==== Sys2Proof/Laws/Assembler.lean ====
section
/-! SUPPORT. The assembler's sum for ctrl (R80) is the word of format C with the operands in their fields (R73). -/

namespace Sys2Proof.Machine

/-- Operands in range are the fields of the word the assembler sums up. -/
theorem word_ctrl (p r g b m0 m1 : Nat) (ha : (Asm.ctrl p r g b m0 m1).inRange = true) :
    (Asm.ctrl p r g b m0 m1).word = some (encodeC 0x10#8 (BitVec.ofNat 8 p) (BitVec.ofNat 8 r) (BitVec.ofNat 8 g)
      (BitVec.ofNat 8 b) (BitVec.ofNat 8 m0) (BitVec.ofNat 8 m1)) := by
  have key : (Asm.ctrl p r g b m0 m1).cmdNumber = (encodeC 0x10#8 (BitVec.ofNat 8 p) (BitVec.ofNat 8 r) (BitVec.ofNat 8 g)
      (BitVec.ofNat 8 b) (BitVec.ofNat 8 m0) (BitVec.ofNat 8 m1)).toNat := by
    simp only [Asm.inRange, decide_eq_true_eq] at ha
    obtain ⟨h1, h2, h3, h4, h5, h6⟩ := ha
    rw [toNat_encodeC]
    simp only [Asm.cmdNumber, Asm.expand, Nat.shiftLeft_eq]
    rw [BitVec.toNat_ofNat, BitVec.toNat_ofNat, BitVec.toNat_ofNat, BitVec.toNat_ofNat, BitVec.toNat_ofNat,
      BitVec.toNat_ofNat, BitVec.toNat_ofNat,
      Nat.mod_eq_of_lt (a := p) (by omega), Nat.mod_eq_of_lt (a := r) (by omega), Nat.mod_eq_of_lt (a := g) (by omega),
      Nat.mod_eq_of_lt (a := b) (by omega), Nat.mod_eq_of_lt (a := m0) (by omega), Nat.mod_eq_of_lt (a := m1) (by omega)]
    simp only [Nat.reducePow, Nat.reduceMod]
    ring
  unfold Asm.word
  rw [ha, if_pos rfl, key, BitVec.ofNat_toNat, BitVec.setWidth_eq]

end Sys2Proof.Machine
end

