-- ==== Sys2Proof/Laws/FieldCodec.lean ====
section
/-! SUPPORT. Spec lemmas of the Field Codec primitives and of the framing function. -/

namespace Sys2Proof.Machine

theorem byteAt_eq_some {data : List Byte} {i : Nat} (h : i < data.length) : byteAt data i = some data[i] := by
  simp [byteAt, h]

theorem byteAt_isSome {data : List Byte} {i : Nat} : (byteAt data i).isSome ↔ i < data.length := by
  simp [byteAt]

theorem bitAt_eq_some {data : List Byte} {i k : Nat} (h : i < data.length) (hk : k ≤ 7) :
    bitAt data i k = some (data[i].getLsbD k) := by
  simp [bitAt, h, hk]

/-- Reads agree on buffers that agree up to a bound. -/
theorem byteAt_take {d d' : List Byte} {n i : Nat} (h : d.take n = d'.take n) (hi : i < n) :
    byteAt d i = byteAt d' i := by
  have := congrArg (fun l : List Byte => l[i]?) h
  simpa [List.getElem?_take, hi, byteAt] using this

theorem bitAt_eq_map (d : List Byte) (i k : Nat) :
    bitAt d i k = if k ≤ 7 then (byteAt d i).map (fun b => b.getLsbD k) else none := rfl

@[simp] theorem u16le_length (v : Half) : (u16le v).length = 2 := rfl

@[simp] theorem u32le_length (v : Word32) : (u32le v).length = 4 := rfl

/-- Reading two packed bytes back gives the value (R104). -/
theorem rd16le_append_u16le (a b : List Byte) (v : Half) : rd16le (a ++ u16le v ++ b) a.length = some v := by
  have h0 : byteAt (a ++ u16le v ++ b) a.length = some (v.extractLsb' 0 8) := by simp [byteAt, u16le]
  have h1 : byteAt (a ++ u16le v ++ b) (a.length + 1) = some (v.extractLsb' 8 8) := by simp [byteAt, u16le]
  simp only [rd16le, h0, h1, Option.some.injEq]
  apply BitVec.eq_of_toNat_eq
  simp [Nat.shiftRight_eq_div_pow]
  omega

/-- Packing the value read from two bytes gives the two bytes (R104). -/
theorem u16le_of_bytes (lo hi : Byte) : u16le (BitVec.ofNat 16 (lo.toNat + 256 * hi.toNat)) = [lo, hi] := by
  have h1 := lo.isLt
  have h2 := hi.isLt
  simp only [u16le, List.cons.injEq, and_true]
  constructor <;> apply BitVec.eq_of_toNat_eq <;> simp [Nat.shiftRight_eq_div_pow] <;> omega

/-- Reading four packed bytes back gives the value (R204). -/
theorem rd32le_append_u32le (a b : List Byte) (v : Word32) : rd32le (a ++ u32le v ++ b) a.length = some v := by
  have h0 : byteAt (a ++ u32le v ++ b) a.length = some (v.extractLsb' 0 8) := by simp [byteAt, u32le]
  have h1 : byteAt (a ++ u32le v ++ b) (a.length + 1) = some (v.extractLsb' 8 8) := by simp [byteAt, u32le]
  have h2 : byteAt (a ++ u32le v ++ b) (a.length + 2) = some (v.extractLsb' 16 8) := by simp [byteAt, u32le]
  have h3 : byteAt (a ++ u32le v ++ b) (a.length + 3) = some (v.extractLsb' 24 8) := by simp [byteAt, u32le]
  simp only [rd32le, h0, h1, h2, h3, Option.some.injEq]
  apply BitVec.eq_of_toNat_eq
  simp [Nat.shiftRight_eq_div_pow]
  omega

/-- R102, bit by bit: `setIf` sets the mask's bits and clears none. -/
theorem getLsbD_setIf (v m : Half) (c : Bool) (j : Nat) :
    (setIf v m c).getLsbD j = (v.getLsbD j || (c && m.getLsbD j)) := by
  cases c <;> simp [setIf]

/-- R202: a frame is four bytes longer than its body. -/
@[simp] theorem frame_length (p : Byte) (body : List Byte) : (frame p body).length = body.length + 4 := by
  simp [frame]

/-- R202: the body stands first in its frame. -/
theorem frame_take (p : Byte) (body : List Byte) : (frame p body).take body.length = body := by simp [frame]

/-- R202: the trailer stands last in its frame. -/
theorem frame_drop (p : Byte) (body : List Byte) :
    (frame p body).drop body.length = u32le (crc32 (p :: body)) := by simp [frame]

/-- A frame's bytes below the trailer are its body's. -/
theorem frame_getElem? (p : Byte) (body : List Byte) (k : Nat) (h : k < body.length) :
    (frame p body)[k]? = body[k]? := by
  simp [frame, List.getElem?_append_left h]

end Sys2Proof.Machine
end

