-- ==== Sys2Proof/Laws/State.lean ====
section
/-! SUPPORT. What each field holds after each named operation: one lemma per field per update, true by definition. -/

namespace Sys2Proof.Machine

variable (s : State)

@[simp] theorem respond_cfg (r : Response) : (respond r s).cfg = s.cfg := rfl
@[simp] theorem respond_audCtr (r : Response) : (respond r s).audCtr = s.audCtr := rfl
@[simp] theorem respond_lstate (r : Response) : (respond r s).lstate = s.lstate := rfl
@[simp] theorem respond_cfgOk (r : Response) : (respond r s).cfgOk = s.cfgOk := rfl
@[simp] theorem respond_ax (r : Response) : (respond r s).ax = s.ax := rfl
@[simp] theorem respond_din (r : Response) : (respond r s).din = s.din := rfl
@[simp] theorem respond_resp (r : Response) : (respond r s).resp = some r := rfl
@[simp] theorem respond_inbox (r : Response) : (respond r s).inbox = s.inbox := rfl

@[simp] theorem finish_cfg (v : Half) (f : Byte) (d : List Byte) : (finish v f d s).cfg = s.cfg := rfl
@[simp] theorem finish_audCtr (v : Half) (f : Byte) (d : List Byte) : (finish v f d s).audCtr = s.audCtr := rfl
@[simp] theorem finish_lstate (v : Half) (f : Byte) (d : List Byte) : (finish v f d s).lstate = s.lstate := rfl
@[simp] theorem finish_cfgOk (v : Half) (f : Byte) (d : List Byte) : (finish v f d s).cfgOk = s.cfgOk := rfl
@[simp] theorem finish_ax (v : Half) (f : Byte) (d : List Byte) : (finish v f d s).ax = s.ax := rfl
@[simp] theorem finish_din (v : Half) (f : Byte) (d : List Byte) : (finish v f d s).din = s.din := rfl
@[simp] theorem finish_resp (v : Half) (f : Byte) (d : List Byte) : (finish v f d s).resp = some ⟨.ok, v, f, d⟩ := rfl
@[simp] theorem finish_inbox (v : Half) (f : Byte) (d : List Byte) : (finish v f d s).inbox = s.inbox := rfl

@[simp] theorem raise_cfg (e : Status) : (raise e s).cfg = s.cfg := rfl
@[simp] theorem raise_audCtr (e : Status) : (raise e s).audCtr = s.audCtr := rfl
@[simp] theorem raise_lstate (e : Status) : (raise e s).lstate = s.lstate := rfl
@[simp] theorem raise_cfgOk (e : Status) : (raise e s).cfgOk = s.cfgOk := rfl
@[simp] theorem raise_ax (e : Status) : (raise e s).ax = s.ax := rfl
@[simp] theorem raise_din (e : Status) : (raise e s).din = s.din := rfl
@[simp] theorem raise_resp (e : Status) : (raise e s).resp = some ⟨e, 0x0000#16, 0x00#8, []⟩ := rfl
@[simp] theorem raise_inbox (e : Status) : (raise e s).inbox = s.inbox := rfl

@[simp] theorem latch_cfg (l : LogicalState) : (latch l s).cfg = s.cfg := rfl
@[simp] theorem latch_audCtr (l : LogicalState) : (latch l s).audCtr = s.audCtr := rfl
@[simp] theorem latch_lstate (l : LogicalState) : (latch l s).lstate = some l := rfl
@[simp] theorem latch_cfgOk (l : LogicalState) : (latch l s).cfgOk = s.cfgOk := rfl
@[simp] theorem latch_ax (l : LogicalState) : (latch l s).ax = s.ax := rfl
@[simp] theorem latch_din (l : LogicalState) : (latch l s).din = s.din := rfl
@[simp] theorem latch_resp (l : LogicalState) : (latch l s).resp = s.resp := rfl
@[simp] theorem latch_inbox (l : LogicalState) : (latch l s).inbox = s.inbox := rfl

@[simp] theorem dropLatch_cfg : (dropLatch s).cfg = s.cfg := rfl
@[simp] theorem dropLatch_audCtr : (dropLatch s).audCtr = s.audCtr := rfl
@[simp] theorem dropLatch_lstate : (dropLatch s).lstate = none := rfl
@[simp] theorem dropLatch_cfgOk : (dropLatch s).cfgOk = s.cfgOk := rfl
@[simp] theorem dropLatch_ax : (dropLatch s).ax = s.ax := rfl
@[simp] theorem dropLatch_din : (dropLatch s).din = s.din := rfl
@[simp] theorem dropLatch_resp : (dropLatch s).resp = s.resp := rfl
@[simp] theorem dropLatch_inbox : (dropLatch s).inbox = s.inbox := rfl

@[simp] theorem failDecode_cfg (e : Status) : (failDecode e s).cfg = s.cfg := rfl
@[simp] theorem failDecode_audCtr (e : Status) : (failDecode e s).audCtr = s.audCtr := rfl
@[simp] theorem failDecode_lstate (e : Status) : (failDecode e s).lstate = none := rfl
@[simp] theorem failDecode_cfgOk (e : Status) : (failDecode e s).cfgOk = s.cfgOk := rfl
@[simp] theorem failDecode_ax (e : Status) : (failDecode e s).ax = s.ax := rfl
@[simp] theorem failDecode_din (e : Status) : (failDecode e s).din = s.din := rfl
@[simp] theorem failDecode_resp (e : Status) : (failDecode e s).resp = some ⟨e, 0x0000#16, 0x00#8, []⟩ := rfl
@[simp] theorem failDecode_inbox (e : Status) : (failDecode e s).inbox = s.inbox := rfl

@[simp] theorem advanceCounter_cfg : (advanceCounter s).cfg = s.cfg := rfl
@[simp] theorem advanceCounter_audCtr : (advanceCounter s).audCtr = s.audCtr + s.cfg.audStride := rfl
@[simp] theorem advanceCounter_lstate : (advanceCounter s).lstate = s.lstate := rfl
@[simp] theorem advanceCounter_cfgOk : (advanceCounter s).cfgOk = s.cfgOk := rfl
@[simp] theorem advanceCounter_ax : (advanceCounter s).ax = s.ax := rfl
@[simp] theorem advanceCounter_din : (advanceCounter s).din = s.din := rfl
@[simp] theorem advanceCounter_resp : (advanceCounter s).resp = s.resp := rfl
@[simp] theorem advanceCounter_inbox : (advanceCounter s).inbox = s.inbox := rfl

@[simp] theorem openBuffers_cfg (d : List Byte) (ib : List HostAction) : (openBuffers d ib s).cfg = s.cfg := rfl
@[simp] theorem openBuffers_audCtr (d : List Byte) (ib : List HostAction) : (openBuffers d ib s).audCtr = s.audCtr := rfl
@[simp] theorem openBuffers_lstate (d : List Byte) (ib : List HostAction) : (openBuffers d ib s).lstate = s.lstate := rfl
@[simp] theorem openBuffers_cfgOk (d : List Byte) (ib : List HostAction) : (openBuffers d ib s).cfgOk = s.cfgOk := rfl
@[simp] theorem openBuffers_ax (d : List Byte) (ib : List HostAction) : (openBuffers d ib s).ax = s.ax := rfl
@[simp] theorem openBuffers_din (d : List Byte) (ib : List HostAction) : (openBuffers d ib s).din = d := rfl
@[simp] theorem openBuffers_resp (d : List Byte) (ib : List HostAction) : (openBuffers d ib s).resp = s.resp := rfl
@[simp] theorem openBuffers_inbox (d : List Byte) (ib : List HostAction) : (openBuffers d ib s).inbox = ib := rfl

@[simp] theorem resetWith_cfg (c : Cfg) : (State.resetWith c).cfg = c := rfl
@[simp] theorem resetWith_audCtr (c : Cfg) : (State.resetWith c).audCtr = 0x0000#16 := rfl
@[simp] theorem resetWith_lstate (c : Cfg) : (State.resetWith c).lstate = none := rfl
@[simp] theorem resetWith_cfgOk (c : Cfg) : (State.resetWith c).cfgOk = axisValid c := rfl
@[simp] theorem resetWith_ax (c : Cfg) : (State.resetWith c).ax = axisRegsOf c := rfl
@[simp] theorem resetWith_din (c : Cfg) : (State.resetWith c).din = [] := rfl
@[simp] theorem resetWith_resp (c : Cfg) : (State.resetWith c).resp = none := rfl
@[simp] theorem resetWith_inbox (c : Cfg) : (State.resetWith c).inbox = [] := rfl

@[simp] theorem closeBuffers_next : closeBuffers (.next s) = .next { s with din := [] } := rfl
@[simp] theorem closeBuffers_fault (f : Fault) : closeBuffers (.fault f) = .fault f := rfl
@[simp] theorem closeBuffers_refused (r : Refusal) : closeBuffers (.refused r) = .refused r := rfl

/-- Closing the buffers answers a next state only of a command that does. -/
theorem closeBuffers_eq_next {o : Host.Outcome State Fault Refusal} {t : State} :
    closeBuffers o = .next t ↔ ∃ m, o = .next m ∧ t = { m with din := [] } := by
  cases o <;> simp [eq_comm]

/-- `raise` written as a record update. -/
theorem raise_eq (e : Status) : raise e s = { s with resp := some ⟨e, 0x0000#16, 0x00#8, []⟩ } := rfl

/-- `finish` written as a record update. -/
theorem finish_eq (v : Half) (f : Byte) (d : List Byte) : finish v f d s = { s with resp := some ⟨.ok, v, f, d⟩ } := rfl

/-- `failDecode` written as a record update. -/
theorem failDecode_eq (e : Status) :
    failDecode e s = { s with lstate := none, resp := some ⟨e, 0x0000#16, 0x00#8, []⟩ } := rfl

end Sys2Proof.Machine
end

