-- ==== Sys2Proof/Laws/Commands.lean ====
section
/-! SUPPORT. What each shared operation and each command can do, said once: inversion lemmas that the proofs cite instead of
unfolding a meaning. -/

namespace Sys2Proof.Machine

theorem clamp_ge (x : Int) : -32767 ≤ clamp x := by unfold clamp; split <;> (try split) <;> omega

theorem clamp_le (x : Int) : clamp x ≤ 32767 := by unfold clamp; split <;> (try split) <;> omega

/-- R122 as a minimum and a maximum. -/
theorem clamp_eq (x : Int) : clamp x = max (-32767) (min 32767 x) := by
  unfold clamp; split <;> (try split) <;> omega

/-- R9: the floor shift as a floor division. -/
theorem rescale_eq (a : AxisRegs) (raw : Int) :
    rescale a raw = if raw < a.low then (a.scale * (raw - a.low)) / 16384
      else if a.high < raw then (a.scale * (raw - a.high)) / 16384 else 0 := by
  unfold rescale; simp only [Int.shiftRight_eq_div_pow]; norm_num

theorem axisRegsOf_valid {c : Cfg} (h : axisValid c = true) :
    axisRegsOf c = deriveAxis c.axisMin.val c.axisMax.val c.axisDz.val := by simp [axisRegsOf, h]

theorem axisValid_iff (c : Cfg) : axisValid c = true ↔ 0 < axisSpan c.axisMin.val c.axisMax.val c.axisDz.val := by
  simp [axisValid]

/-- Every report offset is at most 9 under an admissible configuration (R7 (1)). -/
theorem reportOffset_le {c : Cfg} (h : c.Admissible) {o : U8} (ho : o ∈ c.reportOffsets) : o.val ≤ 9 :=
  (h.1.2 o ho).2

/-- A report byte at an admissible offset is there once the length check has passed (R101, R151). -/
theorem reportByte_isSome {c : Cfg} (h : c.Admissible) {o : U8} (ho : o ∈ c.reportOffsets) {din : List Byte}
    (hl : c.reportLen ≤ din.length) : ∃ b, reportByte c din o = some b := by
  have h9 := reportOffset_le h ho
  have hb : c.base.val + o.val < din.length := by simp only [Cfg.reportLen] at hl; omega
  exact ⟨_, byteAt_eq_some hb⟩

theorem reportBit_isSome {c : Cfg} (h : c.Admissible) {e : MapEntry} (he : e ∈ c.mapEntries) {din : List Byte}
    (hl : c.reportLen ≤ din.length) : ∃ b, reportBit c din e = some b := by
  have h9 := (h.1.1 e he).2
  have hb : c.base.val + e.off.val < din.length := by simp only [Cfg.reportLen] at hl; omega
  exact ⟨_, bitAt_eq_some hb (h.2.1 e he)⟩

/-- R153 answers a bitmask when every entry's bit can be read. -/
theorem orMap_isSome {c : Cfg} {din : List Byte} {es : List MapEntry} (h : ∀ e ∈ es, ∃ b, reportBit c din e = some b)
    (v : Half) : ∃ w, orMap c din es v = some w := by
  induction es generalizing v with
  | nil => exact ⟨v, rfl⟩
  | cons e es ih =>
    obtain ⟨b, hb⟩ := h e (by simp)
    obtain ⟨w, hw⟩ := ih (fun e' he' => h e' (by simp [he'])) (setIf v e.mask b)
    exact ⟨w, by simp [orMap, hb, hw]⟩

/-- R153, bit by bit: a bit of the bitmask is set by the seed or by an entry whose report bit is set. -/
theorem orMap_getLsbD {c : Cfg} {din : List Byte} {es : List MapEntry} {v w : Half} (h : orMap c din es v = some w)
    (j : Nat) : w.getLsbD j = true ↔
      v.getLsbD j = true ∨ ∃ e ∈ es, e.mask.getLsbD j = true ∧ reportBit c din e = some true := by
  induction es generalizing v with
  | nil => simp only [orMap, Option.some.injEq] at h; simp [h]
  | cons e es ih =>
    cases hb : reportBit c din e with
    | none => simp [orMap, hb] at h
    | some b =>
      rw [orMap, hb] at h
      rw [ih h, getLsbD_setIf]
      cases b <;> simp [hb, or_assoc]

theorem offAx_mem (c : Cfg) (k : Nat) (hk : k < 4) : c.offAx[k] ∈ c.reportOffsets := by
  simp [Cfg.reportOffsets]

/-- R155 answers four axes when the four bytes can be read. -/
theorem reportAxes_eq {c : Cfg} {a : AxisRegs} {din : List Byte} {ax : Vector Half 4} :
    reportAxes c a din = some ax ↔
      ∃ r0 r1 r2 r3, reportByte c din c.offAx[0] = some r0 ∧ reportByte c din c.offAx[1] = some r1 ∧
        reportByte c din c.offAx[2] = some r2 ∧ reportByte c din c.offAx[3] = some r3 ∧
        ax = #v[axisHalf a r0, axisHalf a r1, axisHalf a r2, axisHalf a r3] := by
  simp only [reportAxes, Option.bind_eq_bind, Option.bind_eq_some_iff, Option.pure_def, Option.some.injEq]
  constructor
  · rintro ⟨r0, h0, r1, h1, r2, h2, r3, h3, rfl⟩; exact ⟨r0, r1, r2, r3, h0, h1, h2, h3, rfl⟩
  · rintro ⟨r0, r1, r2, r3, h0, h1, h2, h3, rfl⟩; exact ⟨r0, h0, r1, h1, r2, h2, r3, h3, rfl⟩

/-- R153 to R156: what the decoded fields are. -/
theorem reportFields_eq {c : Cfg} {a : AxisRegs} {din : List Byte} {seed : Half} {none' : Bool} {d : Decoded} :
    reportFields c a din seed none' = some d ↔
      ∃ btn lt rt ax misc, orMap c din c.mapEntries seed = some btn ∧ reportByte c din c.offLt = some lt ∧
        reportByte c din c.offRt = some rt ∧ reportAxes c a din = some ax ∧ reportByte c din c.offMisc = some misc ∧
        d = ⟨⟨btn, lt, rt, ax⟩, seqOf misc, none'⟩ := by
  simp only [reportFields, Option.bind_eq_bind, Option.bind_eq_some_iff, Option.pure_def, Option.some.injEq]
  constructor
  · rintro ⟨b, h0, l, h1, r, h2, x, h3, m, h4, rfl⟩; exact ⟨b, l, r, x, m, h0, h1, h2, h3, h4, rfl⟩
  · rintro ⟨b, l, r, x, m, h0, h1, h2, h3, h4, rfl⟩; exact ⟨b, h0, l, h1, r, h2, x, h3, m, h4, rfl⟩

/-- R101: under an admissible configuration a report long enough has every field. -/
theorem reportFields_isSome {c : Cfg} (h : c.Admissible) (a : AxisRegs) {din : List Byte}
    (hl : c.reportLen ≤ din.length) (seed : Half) (dn : Bool) : ∃ d, reportFields c a din seed dn = some d := by
  obtain ⟨btn, hbtn⟩ := orMap_isSome (fun e he => reportBit_isSome h he hl) seed
  obtain ⟨lt, hlt⟩ := reportByte_isSome h (o := c.offLt) (by simp [Cfg.reportOffsets]) hl
  obtain ⟨rt, hrt⟩ := reportByte_isSome h (o := c.offRt) (by simp [Cfg.reportOffsets]) hl
  obtain ⟨m, hm⟩ := reportByte_isSome h (o := c.offMisc) (by simp [Cfg.reportOffsets]) hl
  obtain ⟨r0, h0⟩ := reportByte_isSome h (offAx_mem c 0 (by omega)) hl
  obtain ⟨r1, h1⟩ := reportByte_isSome h (offAx_mem c 1 (by omega)) hl
  obtain ⟨r2, h2⟩ := reportByte_isSome h (offAx_mem c 2 (by omega)) hl
  obtain ⟨r3, h3⟩ := reportByte_isSome h (offAx_mem c 3 (by omega)) hl
  exact ⟨_, reportFields_eq.2 ⟨btn, lt, rt, _, m, hbtn, hlt, hrt,
    reportAxes_eq.2 ⟨r0, r1, r2, r3, h0, h1, h2, h3, rfl⟩, hm, rfl⟩⟩

/-- R152, as cases. -/
theorem dpadSeed_cases (c : Cfg) (n : Fin 16) :
    (∃ h : n.val < 8, dpadSeed c n = .ok ((c.dpadTable[n.val]).setWidth 16, false)) ∨
    (8 ≤ n.val ∧ c.dpadPolicy = .none ∧ dpadSeed c n = .ok (0x0000#16, true)) ∨
    (8 ≤ n.val ∧ c.dpadPolicy = .reject ∧ dpadSeed c n = .error .decodeDpad) := by
  by_cases h : n.val ≤ 7
  · exact .inl ⟨by omega, by simp [dpadSeed, h]⟩
  · cases hp : c.dpadPolicy
    · exact .inr (.inl ⟨by omega, rfl, by simp [dpadSeed, h, hp]⟩)
    · exact .inr (.inr ⟨by omega, rfl, by simp [dpadSeed, h, hp]⟩)

/-- DECODE_CORE's checks and extraction (R157), in its order: the cases of `decodeReport`. -/
theorem decodeReport_cases (s : State) :
    (s.cfgOk = false ∧ decodeReport s = some (.error .configError)) ∨
    (s.cfgOk = true ∧ s.din.length < s.cfg.reportLen ∧ decodeReport s = some (.error .decodeShort)) ∨
    (s.cfgOk = true ∧ s.cfg.reportLen ≤ s.din.length ∧ tagMatches s.cfg s.din = false ∧
      decodeReport s = some (.error .decodeBadTag)) ∨
    (s.cfgOk = true ∧ s.cfg.reportLen ≤ s.din.length ∧ tagMatches s.cfg s.din = true ∧
      reportByte s.cfg s.din s.cfg.offBtn0 = none ∧ decodeReport s = none) ∨
    (∃ b, s.cfgOk = true ∧ s.cfg.reportLen ≤ s.din.length ∧ tagMatches s.cfg s.din = true ∧
      reportByte s.cfg s.din s.cfg.offBtn0 = some b ∧ dpadSeed s.cfg (dpadNibble b) = .error .decodeDpad ∧
      decodeReport s = some (.error .decodeDpad)) ∨
    (∃ b seed dn, s.cfgOk = true ∧ s.cfg.reportLen ≤ s.din.length ∧ tagMatches s.cfg s.din = true ∧
      reportByte s.cfg s.din s.cfg.offBtn0 = some b ∧ dpadSeed s.cfg (dpadNibble b) = .ok (seed, dn) ∧
      decodeReport s = (reportFields s.cfg s.ax s.din seed dn).map .ok) := by
  by_cases h1 : s.cfgOk = false
  · exact .inl ⟨h1, by simp [decodeReport, h1]⟩
  · have h1' : s.cfgOk = true := by simpa using h1
    by_cases h2 : s.din.length < s.cfg.reportLen
    · exact .inr (.inl ⟨h1', h2, by simp [decodeReport, h1', h2]⟩)
    · by_cases h3 : tagMatches s.cfg s.din = false
      · exact .inr (.inr (.inl ⟨h1', by omega, h3, by simp [decodeReport, h1', h2, h3]⟩))
      · have h3' : tagMatches s.cfg s.din = true := by simpa using h3
        cases hb : reportByte s.cfg s.din s.cfg.offBtn0 with
        | none => exact .inr (.inr (.inr (.inl ⟨h1', by omega, h3', rfl, by simp [decodeReport, h1', h2, h3', hb]⟩)))
        | some b =>
          rcases dpadSeed_cases s.cfg (dpadNibble b) with ⟨_, hd⟩ | ⟨_, _, hd⟩ | ⟨_, _, hd⟩
          · exact .inr (.inr (.inr (.inr (.inr ⟨b, _, _, h1', by omega, h3', rfl, hd,
              by simp [decodeReport, h1', h2, h3', hb, hd]⟩))))
          · exact .inr (.inr (.inr (.inr (.inr ⟨b, _, _, h1', by omega, h3', rfl, hd,
              by simp [decodeReport, h1', h2, h3', hb, hd]⟩))))
          · exact .inr (.inr (.inr (.inr (.inl ⟨b, h1', by omega, h3', rfl, hd,
              by simp [decodeReport, h1', h2, h3', hb, hd]⟩))))

/-- The errors DECODE_CORE raises (R157). -/
theorem decodeReport_error {s : State} {e : Status} (h : decodeReport s = some (.error e)) :
    e = .configError ∨ e = .decodeShort ∨ e = .decodeBadTag ∨ e = .decodeDpad := by
  rcases decodeReport_cases s with ⟨_, h'⟩ | ⟨_, _, h'⟩ | ⟨_, _, _, h'⟩ | ⟨_, _, _, _, h'⟩ | ⟨_, _, _, _, _, _, h'⟩ |
    ⟨_, _, _, _, _, _, _, _, h'⟩ <;> rw [h'] at h <;> simp at h <;> simp [← h]

/-- What DECODE_CORE decodes (R157): the case in which it answers a report. -/
theorem decodeReport_ok {s : State} {d : Decoded} (h : decodeReport s = some (.ok d)) :
    ∃ b seed dn, s.cfgOk = true ∧ s.cfg.reportLen ≤ s.din.length ∧ tagMatches s.cfg s.din = true ∧
      reportByte s.cfg s.din s.cfg.offBtn0 = some b ∧ dpadSeed s.cfg (dpadNibble b) = .ok (seed, dn) ∧
      reportFields s.cfg s.ax s.din seed dn = some d := by
  rcases decodeReport_cases s with ⟨_, h'⟩ | ⟨_, _, h'⟩ | ⟨_, _, _, h'⟩ | ⟨_, _, _, _, h'⟩ | ⟨_, _, _, _, _, _, h'⟩ |
    ⟨b, seed, dn, h1, h2, h3, h4, h5, h'⟩ <;> rw [h'] at h <;> simp at h
  exact ⟨b, seed, dn, h1, h2, h3, h4, h5, h⟩

theorem exec_axcor (raw : Byte) (s : State) : exec (.axcor raw) s = execAxcor raw s := rfl
theorem exec_decode (s : State) : exec .decode s = decodeCore (fun _ => []) s := rfl
theorem exec_encode (s : State) : exec .encode s = execEncode s := rfl
theorem exec_decenc (s : State) : exec .decenc s = decodeCore wire s := rfl
theorem exec_ldstate (s : State) : exec .ldstate s = execLdstate s := rfl
theorem exec_ctrl (poll r g b m0 m1 : Byte) (s : State) :
    exec (.ctrl poll r g b m0 m1) s = execCtrl poll r g b m0 m1 s := rfl
theorem exec_audio (s : State) : exec .audio s = execAudio s := rfl

/-- DECODE and DECENC on an error of DECODE_CORE. -/
theorem decodeCore_of_error (f : LogicalState → List Byte) {s : State} {e : Status}
    (h : decodeReport s = some (.error e)) : decodeCore f s = .next (failDecode e s) := by simp [decodeCore, h]

/-- DECODE and DECENC on a report that decodes. -/
theorem decodeCore_of_ok (f : LogicalState → List Byte) {s : State} {d : Decoded}
    (h : decodeReport s = some (.ok d)) :
    decodeCore f s = .next (finish d.seq (flagsByte d.dpadNone) (f d.lstate) (latch d.lstate s)) := by
  simp [decodeCore, h]

/-- R151 (2) as the rule says it. -/
theorem tagMatches_iff (c : Cfg) (din : List Byte) :
    tagMatches c din = true ↔ (c.checkTag = true → din[0]? = some c.inTag) := by
  unfold tagMatches byteAt; cases c.checkTag <;> simp

/-- R152: the dpad nibble as a number. -/
theorem dpadNibble_val (b : Byte) : (dpadNibble b).val = b.toNat % 16 := by
  simp [dpadNibble, BitVec.extractLsb']

/-- What DECODE and DECENC do when they answer a next state. -/
theorem decodeCore_next {f : LogicalState → List Byte} {s t : State} (h : decodeCore f s = .next t) :
    (∃ e, decodeReport s = some (.error e) ∧ t = failDecode e s) ∨
    (∃ d, decodeReport s = some (.ok d) ∧ t = finish d.seq (flagsByte d.dpadNone) (f d.lstate) (latch d.lstate s)) := by
  unfold decodeCore at h
  cases hd : decodeReport s with
  | none => simp [hd] at h
  | some r =>
    cases r with
    | error e => simp only [hd, Host.Outcome.next.injEq] at h; exact .inl ⟨e, rfl, h.symm⟩
    | ok d => simp only [hd, Host.Outcome.next.injEq] at h; exact .inr ⟨d, rfl, h.symm⟩

theorem execAxcor_next {raw : Byte} {s t : State} (h : execAxcor raw s = .next t) :
    (s.cfgOk = true ∧ t = finish (axisHalf s.ax raw) 0x00#8 [] s) ∨ (s.cfgOk = false ∧ t = raise .configError s) := by
  unfold execAxcor at h
  cases hc : s.cfgOk <;> simp [hc] at h <;> simp [h]

theorem execEncode_next {s t : State} (h : execEncode s = .next t) :
    (s.lstate = none ∧ t = raise .noState s) ∨ (∃ l, s.lstate = some l ∧ t = finish 0x0000#16 0x00#8 (wire l) s) := by
  unfold execEncode at h
  cases hl : s.lstate <;> simp [hl] at h <;> simp [h]

theorem execLdstate_next {s t : State} (h : execLdstate s = .next t) :
    (s.din.length ≠ 12 ∧ t = raise .badLength s) ∨
    (∃ l, s.din.length = 12 ∧ imageState s.din = some l ∧ t = finish 0x0000#16 0x00#8 [] (latch l s)) := by
  unfold execLdstate at h
  by_cases hn : s.din.length = 12
  · cases hl : imageState s.din with
    | none => simp [hn, hl] at h
    | some l => simp [hn, hl] at h; exact .inr ⟨l, hn, rfl, h.symm⟩
  · simp [hn] at h; exact .inl ⟨hn, h.symm⟩

theorem execAudio_next {s t : State} (h : execAudio s = .next t) :
    (s.din.length ≠ s.cfg.audN.val ∧ t = raise .badLength s) ∨
    (s.din.length = s.cfg.audN.val ∧
      t = finish s.audCtr 0x00#8 (frame s.cfg.crcPrefix (audioBody s.cfg s.audCtr s.din)) (advanceCounter s)) := by
  unfold execAudio at h
  by_cases hn : s.din.length = s.cfg.audN.val
  · simp only [hn, if_true, Host.Outcome.next.injEq] at h; exact .inr ⟨hn, h.symm⟩
  · simp only [hn, if_false, Host.Outcome.next.injEq] at h; exact .inl ⟨hn, h.symm⟩

theorem execCtrl_next {poll r g b m0 m1 : Byte} {s t : State} (h : execCtrl poll r g b m0 m1 s = .next t) :
    t = finish 0x0000#16 0x00#8 (frame s.cfg.crcPrefix (ctrlBody s.cfg poll r g b m0 m1)) s := by
  simpa [execCtrl, eq_comm] using h

/-- A 12-byte image has every field (R159). -/
theorem imageState_isSome {din : List Byte} (h : din.length = 12) : ∃ l, imageState din = some l := by
  obtain ⟨b0, b1, b2, b3, b4, b5, b6, b7, b8, b9, b10, b11, rfl⟩ :
      ∃ b0 b1 b2 b3 b4 b5 b6 b7 b8 b9 b10 b11 : Byte, din = [b0, b1, b2, b3, b4, b5, b6, b7, b8, b9, b10, b11] := by
    match din, h with
    | [b0, b1, b2, b3, b4, b5, b6, b7, b8, b9, b10, b11], _ => exact ⟨b0, b1, b2, b3, b4, b5, b6, b7, b8, b9, b10, b11, rfl⟩
  exact ⟨_, rfl⟩

/-- Everything a command can do when it answers a next state, in one place: it raises an error and writes nothing else, it
fails as DECODE_CORE does, or it ends with OK and its own writes. -/
theorem exec_next_cases {i : Instr} {s t : State} (h : exec i s = .next t) :
    (∃ e, e ∈ mayRaise i ∧ i ≠ .decode ∧ i ≠ .decenc ∧ t = raise e s) ∨
    (∃ e, e ∈ mayRaise i ∧ (i = .decode ∨ i = .decenc) ∧ decodeReport s = some (.error e) ∧ t = failDecode e s) ∨
    (∃ d out, decodeReport s = some (.ok d) ∧ ((i = .decode ∧ out = []) ∨ (i = .decenc ∧ out = wire d.lstate)) ∧
      t = finish d.seq (flagsByte d.dpadNone) out (latch d.lstate s)) ∨
    (∃ raw, i = .axcor raw ∧ s.cfgOk = true ∧ t = finish (axisHalf s.ax raw) 0x00#8 [] s) ∨
    (∃ l, i = .encode ∧ s.lstate = some l ∧ t = finish 0x0000#16 0x00#8 (wire l) s) ∨
    (∃ l, i = .ldstate ∧ s.din.length = 12 ∧ imageState s.din = some l ∧
      t = finish 0x0000#16 0x00#8 [] (latch l s)) ∨
    (∃ poll r g b m0 m1, i = .ctrl poll r g b m0 m1 ∧
      t = finish 0x0000#16 0x00#8 (frame s.cfg.crcPrefix (ctrlBody s.cfg poll r g b m0 m1)) s) ∨
    (i = .audio ∧ s.din.length = s.cfg.audN.val ∧
      t = finish s.audCtr 0x00#8 (frame s.cfg.crcPrefix (audioBody s.cfg s.audCtr s.din)) (advanceCounter s)) := by
  cases i with
  | axcor raw =>
    rcases execAxcor_next h with ⟨hc, rfl⟩ | ⟨_, rfl⟩
    · exact .inr (.inr (.inr (.inl ⟨raw, rfl, hc, rfl⟩)))
    · exact .inl ⟨_, by simp [mayRaise], by simp, by simp, rfl⟩
  | decode =>
    rcases decodeCore_next (f := fun _ => []) h with ⟨e, he, rfl⟩ | ⟨d, hd, rfl⟩
    · exact .inr (.inl ⟨e, by rcases decodeReport_error he with rfl | rfl | rfl | rfl <;> simp [mayRaise], .inl rfl, he, rfl⟩)
    · exact .inr (.inr (.inl ⟨d, _, hd, .inl ⟨rfl, rfl⟩, rfl⟩))
  | encode =>
    rcases execEncode_next h with ⟨_, rfl⟩ | ⟨l, hl, rfl⟩
    · exact .inl ⟨_, by simp [mayRaise], by simp, by simp, rfl⟩
    · exact .inr (.inr (.inr (.inr (.inl ⟨l, rfl, hl, rfl⟩))))
  | decenc =>
    rcases decodeCore_next (f := wire) h with ⟨e, he, rfl⟩ | ⟨d, hd, rfl⟩
    · exact .inr (.inl ⟨e, by rcases decodeReport_error he with rfl | rfl | rfl | rfl <;> simp [mayRaise], .inr rfl, he, rfl⟩)
    · exact .inr (.inr (.inl ⟨d, _, hd, .inr ⟨rfl, rfl⟩, rfl⟩))
  | ldstate =>
    rcases execLdstate_next h with ⟨_, rfl⟩ | ⟨l, h1, h2, rfl⟩
    · exact .inl ⟨_, by simp [mayRaise], by simp, by simp, rfl⟩
    · exact .inr (.inr (.inr (.inr (.inr (.inl ⟨l, rfl, h1, h2, rfl⟩)))))
  | ctrl poll r g b m0 m1 =>
    exact .inr (.inr (.inr (.inr (.inr (.inr (.inl ⟨poll, r, g, b, m0, m1, rfl, execCtrl_next h⟩))))))
  | audio =>
    rcases execAudio_next h with ⟨_, rfl⟩ | ⟨hn, rfl⟩
    · exact .inl ⟨_, by simp [mayRaise], by simp, by simp, rfl⟩
    · exact .inr (.inr (.inr (.inr (.inr (.inr (.inr ⟨rfl, hn, rfl⟩))))))

end Sys2Proof.Machine
end

