-- ==== Sys2Proof/Laws/Frames.lean ====
section
/-! SUPPORT. The bodies of the two frames: what stands at each offset. -/

namespace Sys2Proof.Machine

@[simp] theorem writeFields_length (ws : List (Nat × Byte)) (body : List Byte) :
    (writeFields body ws).length = body.length := by
  induction ws generalizing body with
  | nil => rfl
  | cons w ws ih => simp [writeFields, ih]

/-- An offset no write names keeps its byte (R209). -/
theorem writeFields_of_not_mem {ws : List (Nat × Byte)} {k : Nat} (h : k ∉ ws.map Prod.fst) (body : List Byte) :
    (writeFields body ws)[k]? = body[k]? := by
  induction ws generalizing body with
  | nil => rfl
  | cons w ws ih =>
    simp only [List.map_cons, List.mem_cons, not_or] at h
    rw [writeFields, ih h.2, List.getElem?_set_ne (Ne.symm h.1)]

/-- With distinct offsets every write is read back: the order of the writes does not matter (R209). -/
theorem writeFields_of_mem {ws : List (Nat × Byte)} {k : Nat} {v : Byte} (hd : (ws.map Prod.fst).Nodup)
    (h : (k, v) ∈ ws) {body : List Byte} (hk : k < body.length) : (writeFields body ws)[k]? = some v := by
  induction ws generalizing body with
  | nil => cases h
  | cons w ws ih =>
    simp only [List.map_cons, List.nodup_cons] at hd
    rcases List.mem_cons.1 h with rfl | h'
    · rw [writeFields, writeFields_of_not_mem hd.1, List.getElem?_set_self hk]
    · exact ih hd.2 h' (by simpa using hk)

/-- The offsets CTRL writes: the tag's 0 and the seven of R7 (5). -/
theorem ctrlWrites_offsets (c : Cfg) (poll r g b m0 m1 : Byte) :
    (ctrlWrites c poll r g b m0 m1).map Prod.fst = 0 :: c.ctrlOffsets.map Fin.val := by
  simp [ctrlWrites, Cfg.ctrlOffsets]

/-- Under an admissible configuration the written offsets are distinct (R7 (5)). -/
theorem ctrlWrites_nodup {c : Cfg} (h : c.Admissible) (poll r g b m0 m1 : Byte) :
    ((ctrlWrites c poll r g b m0 m1).map Prod.fst).Nodup := by
  rw [ctrlWrites_offsets, List.nodup_cons]
  obtain ⟨hn, hf⟩ := h.2.2.2.2.1
  refine ⟨?_, hn.map Fin.val_injective⟩
  simp only [List.mem_map, not_exists, not_and]
  intro o ho he
  exact (hf o ho).1 (Fin.ext he)

/-- R205: the ControlFrame body is `CTRL_LEN` bytes. -/
theorem ctrlBody_length {c : Cfg} (h : c.Admissible) (poll r g b m0 m1 : Byte) :
    (ctrlBody c poll r g b m0 m1).length = c.ctrlLen.val := by
  rw [ctrlBody, writeFields_length]
  exact h.2.2.2.2.2.2.2.2

@[simp] theorem audioHeader_length (c : Cfg) (ctr : Half) : (audioHeader c ctr).length = 6 := by simp [audioHeader]

/-- R210: the AudioFrame body is `6 + AUD_N + 4` bytes for a payload of `AUD_N`. -/
theorem audioBody_length (c : Cfg) (ctr : Half) (p : List Byte) :
    (audioBody c ctr p).length = 6 + p.length + 4 := by simp [audioBody]; omega

end Sys2Proof.Machine
end

