-- ==== Sys2Proof/Laws/OpcodeTable.lean ====
section
/-! SUPPORT. The match of each kind of row of spec/opcode_table.json, said as the decoder's tests of the fields (R75, R79). -/

namespace Sys2Proof

/-- The row of axcor matches exactly when the decoder's two tests of format A hold. -/
theorem row_match_A (w : Word64) :
    w &&& 0xFFFFFFFFFFFF00FF#64 = 0x0000000000000001#64 ↔ opField w = 0x01#8 ∧ w.extractLsb' 16 48 = 0 := by
  have hm : ∀ j, j < 64 → (0xFFFFFFFFFFFF00FF#64 : Word64).getLsbD j = (decide (j < 8) || decide (16 ≤ j)) := by decide
  have hp : ∀ j, j < 64 → (0x0000000000000001#64 : Word64).getLsbD j = (decide (j < 8) && (0x01#8).getLsbD j) := by decide
  rw [mask_eq_iff_bits, opField, field_eq_iff_bits, field_eq_iff_bits]
  constructor
  · intro h
    refine ⟨fun j hj => ?_, fun j hj => ?_⟩
    · have := h j (by omega)
      rw [hm j (by omega), hp j (by omega)] at this
      simpa [hj] using this
    · have := h (16 + j) (by omega)
      rw [hm _ (by omega), hp _ (by omega)] at this
      simpa using this
  · rintro ⟨h1, h2⟩ j hj
    rw [hm j hj, hp j hj]
    by_cases h8 : j < 8
    · have := h1 j h8
      simp at this
      simp [h8, this]
    · by_cases h16 : 16 ≤ j
      · have := h2 (j - 16) (by omega)
        rw [show 16 + (j - 16) = j by omega] at this
        simp [h8, h16, this]
      · simp [h8, h16]

/-- A row of format N matches exactly when the decoder's two tests of it hold; `op` is the row's opcode. -/
theorem row_match_N (w : Word64) (op : Byte) :
    w &&& 0xFFFFFFFFFFFFFFFF#64 = op.setWidth 64 ↔ opField w = op ∧ w.extractLsb' 8 56 = 0 := by
  have hm : ∀ j, j < 64 → (0xFFFFFFFFFFFFFFFF#64 : Word64).getLsbD j = true := by decide
  rw [mask_eq_iff_bits, opField, field_eq_iff_bits, field_eq_iff_bits]
  constructor
  · intro h
    refine ⟨fun j hj => ?_, fun j hj => ?_⟩
    · have := h j (by omega)
      rw [hm j (by omega)] at this
      simpa [show j < 64 by omega] using this
    · have := h (8 + j) (by omega)
      rw [hm _ (by omega)] at this
      have h3 : 8 + j < 64 := by omega
      simpa [h3] using this
  · rintro ⟨h1, h2⟩ j hj
    rw [hm j hj]
    by_cases h8 : j < 8
    · have := h1 j h8
      rw [Nat.zero_add] at this
      rw [this, Bool.and_true, BitVec.getLsbD_setWidth]
      simp [hj]
    · have := h2 (j - 8) (by omega)
      rw [show 8 + (j - 8) = j by omega] at this
      simp [this]; intro; exact BitVec.getLsbD_of_ge _ _ (by omega)

/-- The row of ctrl matches exactly when the decoder's three tests of format C hold. -/
theorem row_match_C (w : Word64) :
    w &&& 0xFF0000000000C0FF#64 = 0x0000000000000010#64 ↔
      opField w = 0x10#8 ∧ w.extractLsb' 56 8 = 0 ∧ w.extractLsb' 14 2 = 0 := by
  have hm : ∀ j, j < 64 → (0xFF0000000000C0FF#64 : Word64).getLsbD j =
    (decide (j < 8) || decide (56 ≤ j) || (decide (14 ≤ j) && decide (j < 16))) := by decide
  have hp : ∀ j, j < 64 → (0x0000000000000010#64 : Word64).getLsbD j = (decide (j < 8) && (0x10#8).getLsbD j) := by decide
  rw [mask_eq_iff_bits, opField, field_eq_iff_bits, field_eq_iff_bits, field_eq_iff_bits]
  constructor
  · intro h
    refine ⟨fun j hj => ?_, fun j hj => ?_, fun j hj => ?_⟩
    · have := h j (by omega)
      rw [hm j (by omega), hp j (by omega)] at this
      simpa [hj] using this
    · have := h (56 + j) (by omega)
      rw [hm _ (by omega), hp _ (by omega)] at this
      have h8 : ¬ 56 + j < 8 := by omega
      simpa [h8] using this
    · have := h (14 + j) (by omega)
      rw [hm _ (by omega), hp _ (by omega)] at this
      have h8 : ¬ 14 + j < 8 := by omega
      simpa [show 14 + j < 16 by omega, h8] using this
  · rintro ⟨h1, h2, h3⟩ j hj
    rw [hm j hj, hp j hj]
    by_cases h8 : j < 8
    · have := h1 j h8
      simp at this
      simp [h8, this]
    · by_cases h56 : 56 ≤ j
      · have := h2 (j - 56) (by omega)
        rw [show 56 + (j - 56) = j by omega] at this
        simp [h8, h56, this]
      · by_cases h14 : 14 ≤ j ∧ j < 16
        · have := h3 (j - 14) (by omega)
          rw [show 14 + (j - 14) = j by omega] at this
          simp [h14.1, h14.2, h8, this]
        · have : (decide (14 ≤ j) && decide (j < 16)) = false := by simpa using h14
          simp [h8, h56, this]

end Sys2Proof
end

