-- ==== Sys2Proof/Laws/PerInstr.lean ====
section
/-! SUPPORT. What is said of every instruction as syntax: the family EncodesItsRow. -/

namespace Sys2Proof.Laws.EncodesItsRow

/-- A well-formed instruction's word matches its own row of spec/opcode_table.json, `CMD & mask == match` (R75). -/
def Statement (i : Sys2Proof.Instr) : Prop :=
  Sys2Proof.WellFormed i → Sys2Proof.encode i &&& i.row.mask = i.row.pattern

theorem axcor (raw : Byte) : Statement (.axcor raw) := fun _ => (row_match_A _).2 (by
  have e : (Sys2Proof.encode (.axcor raw)).toNat = _ := toNat_encodeA 0x01#8 raw
  have hr := raw.isLt
  have ho : (0x01#8).toNat = 1 := rfl
  refine ⟨(opField_eq _ 1 (by decide)).2 ?_, (field_eq_zero _ _ _).2 ?_⟩ <;> rw [e, ho] <;> omega)

theorem decode : Statement .decode := fun _ => by decide

theorem encode : Statement .encode := fun _ => by decide

theorem decenc : Statement .decenc := fun _ => by decide

theorem ldstate : Statement .ldstate := fun _ => by decide

theorem ctrl (poll r g b m0 m1 : Byte) : Statement (.ctrl poll r g b m0 m1) := fun h => (row_match_C _).2 (by
  have hp : poll.toNat < 64 := by simpa [WellFormed, Instr.wellFormed] using h
  have e : (Sys2Proof.encode (.ctrl poll r g b m0 m1)).toNat = _ := toNat_encodeC 0x10#8 poll r g b m0 m1
  have hm := m1.isLt
  have ho : (0x10#8).toNat = 16 := rfl
  refine ⟨(opField_eq _ 16 (by decide)).2 ?_, (field_eq_zero _ _ _).2 ?_, (field_eq_zero _ _ _).2 ?_⟩ <;>
    rw [e, ho] <;> omega)

theorem audio : Statement .audio := fun _ => by decide

end Sys2Proof.Laws.EncodesItsRow
end

