-- ==== Sys2Proof/Laws/Step.lean ====
section
/-! SUPPORT. What a step can do, said once, and when it answers at all. -/

namespace Sys2Proof.Machine

/-- A presented word that is performed ends in its command's next state or in ILLEGAL_CMD (R79). -/
theorem performWord_next {w : Word64} {s t : State} (h : performWord w s = .next t) :
    (∃ i, decode w = .ok i ∧ exec i s = .next t) ∨ (∃ e, decode w = .error e ∧ t = raise .illegalCmd s) := by
  unfold performWord at h
  cases hd : decode w with
  | ok i => exact .inl ⟨i, rfl, by simpa [hd] using h⟩
  | error e => simp only [hd, Host.Outcome.next.injEq] at h; exact .inr ⟨e, rfl, h.symm⟩

/-- Everything a step can do when it answers a next state: the idle step, a command (legal or illegal), the taking of a
response, a reset. -/
theorem step_next_cases {s t : State} (h : step s = .next t) :
    s.cfg.Admissible ∧
    ((s.inbox = [] ∧ s.resp = none ∧ t = s) ∨
     (∃ w din rest, s.inbox = .command w din :: rest ∧ s.resp = none ∧ din.length ≤ s.cfg.dinMax.val ∧
       ∃ m, t = { m with din := [] } ∧
         ((∃ i, decode w = .ok i ∧ exec i (openBuffers din rest s) = .next m) ∨
          (∃ e, decode w = .error e ∧ m = raise .illegalCmd (openBuffers din rest s)))) ∨
     (∃ rest, s.inbox = .takeResponse :: rest ∧ t = { s with resp := none, inbox := rest }) ∨
     (∃ c rest, s.inbox = .reset c :: rest ∧ c.Admissible ∧
       t = { State.resetWith c with resp := s.resp, inbox := rest })) := by
  unfold step serve at h
  by_cases ha : s.cfg.Admissible
  · refine ⟨ha, ?_⟩
    rw [if_pos ha] at h
    cases hi : s.inbox with
    | nil =>
      rw [hi] at h
      cases hr : s.resp with
      | none => simp [serveIdle, hr] at h; exact .inl ⟨rfl, rfl, h.symm⟩
      | some r => simp [serveIdle, hr] at h
    | cons act rest =>
      rw [hi] at h
      cases act with
      | command w din =>
        cases hr : s.resp with
        | some r => simp [serveCommand, hr] at h
        | none =>
          by_cases hl : s.cfg.dinMax.val < din.length
          · simp [serveCommand, hr, hl] at h
          · simp only [serveCommand, hr, Option.isSome_none, Bool.false_eq_true, if_false, hl] at h
            obtain ⟨m, hm, ht⟩ := closeBuffers_eq_next.1 h
            exact .inr (.inl ⟨w, din, rest, rfl, rfl, by omega, m, ht, performWord_next hm⟩)
      | takeResponse =>
        simp only [serveTake, Host.Outcome.next.injEq] at h
        exact .inr (.inr (.inl ⟨rest, rfl, h.symm⟩))
      | reset c =>
        by_cases hc : c.Admissible
        · simp only [serveReset, if_pos hc, Host.Outcome.next.injEq] at h
          exact .inr (.inr (.inr ⟨c, rest, rfl, hc, h.symm⟩))
        · simp only [serveReset, if_neg hc] at h; cases h
  · rw [if_neg ha] at h; cases h

/-- A step on a presented command, under an admissible configuration and with no response held. -/
theorem step_command {s : State} {w : Word64} {din : List Byte} {rest : List HostAction} (ha : s.cfg.Admissible)
    (hi : s.inbox = .command w din :: rest) (hr : s.resp = none) (hl : din.length ≤ s.cfg.dinMax.val) :
    step s = closeBuffers (performWord w (openBuffers din rest s)) := by
  have hl' : ¬ s.cfg.dinMax.val < din.length := by omega
  unfold step serve
  rw [if_pos ha, hi]
  simp [serveCommand, hr, hl']

end Sys2Proof.Machine
end

