-- ==== Sys2Proof/Laws/Run.lean ====
section
/-! SUPPORT. Runs of the machine, one step at a time. -/

namespace Sys2Proof.Machine

/-- A run of one step more is the step, then the run from where it leads. -/
theorem run_next {s t : State} (h : step s = .next t) (n : Nat) : core.run (n + 1) s = core.run n t := by
  have hs : core.step s = .next t := h
  simp only [Host.Core.run, hs]

/-- The host takes a held response: one step, and nothing else changes (R277). -/
theorem step_take {s : State} {rest : List HostAction} (ha : s.cfg.Admissible) (hi : s.inbox = .takeResponse :: rest) :
    step s = .next { s with resp := none, inbox := rest } := by
  unfold step serve
  rw [if_pos ha, hi]
  rfl

end Sys2Proof.Machine
end

