-- ==== Sys2Proof/Tests/Slice0.lean ====
section
/-! SUPPORT. The model's own tests: expected results are spec/95_test_vectors.md's vectors and the spec's worked examples, named in
each docstring; and one witness per obligation that has hypotheses. -/

namespace Sys2Proof.Machine.Tests

/- Small states -/

/-- The block after reset under RC, with the input buffer of the command to run. -/
def rcWith (din : List Byte) : State := { State.reset with din := din }

/-- RC with another axis configuration. -/
def axisCfg (mn mx dz : U8) : Cfg := { Cfg.rc with axisMin := mn, axisMax := mx, axisDz := dz }

/-- A report under RC: the four axis bytes and the bytes 7 to 11. -/
def report (a0 a1 a2 a3 b7 b8 b9 lt rt : Byte) : List Byte :=
  [0x11#8, 0x00#8, 0x00#8, a0, a1, a2, a3, b7, b8, b9, lt, rt]

/-- The released report of V-DEC-2. -/
def released : List Byte := report 0x80 0x80 0x80 0x80 0x08 0x00 0x00 0x00 0x00

/-- The LDSTATE image of V-ENC-4. -/
def image4 : List Byte :=
  [0xFF#8, 0xFF#8, 0x00#8, 0xFF#8, 0x00#8, 0x80#8, 0xFF#8, 0xFF#8, 0x01#8, 0x00#8, 0x34#8, 0x12#8]

/-- The LogicalState of V-ENC-4. -/
def state4 : LogicalState := ⟨0xFFFF#16, 0x00#8, 0xFF#8, #v[0x8000#16, 0xFFFF#16, 0x0001#16, 0x1234#16]⟩

/-- The block after V-ENC-4. -/
def after4 : State := { State.reset with lstate := some state4 }

/-- An outcome's latched state and counter; none of a stop. -/
def latchOf : Host.Outcome State Fault Refusal → Option (Option LogicalState × Half)
  | .next s => some (s.lstate, s.audCtr)
  | .fault _ => none
  | .refused _ => none

/-- An outcome's next state; none of a stop. -/
def nextOf : Host.Outcome State Fault Refusal → Option State
  | .next s => some s
  | .fault _ => none
  | .refused _ => none

/-- An outcome's response but for its output bytes. -/
def headOf (o : Host.Outcome State Fault Refusal) : Option (Status × Half × Byte) :=
  (responseOf o).map fun r => (r.status, r.value, r.flags)

/-- An outcome's output bytes. -/
def doutOf (o : Host.Outcome State Fault Refusal) : List Byte := ((responseOf o).map Response.dout).getD []

/- WellFormed: ill-formed terms are refused -/

/-- R73: a `POLL` of 64 has no encoding. -/
theorem test_poll64_ill_formed : ¬ WellFormed (.ctrl 64 0 0 0 0 0) ∧ WellFormed (.ctrl 63 0 0 0 0 0) := by decide

/-- R80: what the assembler rejects, one term per check. -/
theorem test_assembler_rejects :
    (Asm.axcor 256).word = none ∧ (Asm.ctrl 64 0 0 0 0 0).word = none ∧ (Asm.ctrl 0 256 0 0 0 0).word = none ∧
    (Asm.ctrl 0 0 256 0 0 0).word = none ∧ (Asm.ctrl 0 0 0 256 0 0).word = none ∧
    (Asm.ctrl 0 0 0 0 256 0).word = none ∧ (Asm.ctrl 0 0 0 0 0 256).word = none ∧
    (Asm.hstop 64 0 0 0).word = none := by decide

/-- R7 (1) to (3): an offset of 10, one of 0, a bit index of 8, a zero mask. -/
theorem test_inadmissible_maps :
    ([{ Cfg.rc with offLt := 10 }, { Cfg.rc with buttonMap := [⟨0, 0, 0x0001#16⟩] },
      { Cfg.rc with buttonMap := [⟨5, 8, 0x0001#16⟩] }, { Cfg.rc with miscMap := [⟨5, 0, 0x0000#16⟩] }] : List Cfg).all
      (fun c => !decide c.Admissible) = true := by decide +kernel

/-- R7 (5) to (7) and R6's types: a repeated offset, offset 0, an offset at `CTRL_LEN`, a counter at 0 or 5, a small buffer, a short
template. -/
theorem test_inadmissible_layout :
    ([{ Cfg.rc with offG := 8 }, { Cfg.rc with offMode := 0 }, { Cfg.rc with offB := 74 }, { Cfg.rc with offCtr := 0 },
      { Cfg.rc with offCtr := 5 }, { Cfg.rc with dinMax := 447 }, { Cfg.rc with ctrlTemplate := [] }] : List Cfg).all
      (fun c => !decide c.Admissible) = true := by decide +kernel

/-- R6, R7: RC is admissible, and so is RC with a degenerate axis triple or with the edges of R7 (5) to (7). -/
theorem test_admissible :
    [Cfg.rc, axisCfg 0 255 64, { Cfg.rc with offB := 73 }, { Cfg.rc with offCtr := 4 }, { Cfg.rc with dinMax := 448 }].all
      (fun c => decide c.Admissible) = true := by decide +kernel

/- Decode: words written out from R71 to R73 -/

/-- 63:16 zero, `RAW` = 200 = 0xC8 in 15:8, `OP` = 0x01 (R72, V-AX-15). -/
theorem test_decode_axcor : decode 0x000000000000C801#64 = .ok (.axcor 200) := by decide

/-- `OP` = 0x02 (R71). -/
theorem test_decode_decode : decode 0x0000000000000002#64 = .ok .decode := by decide

/-- `OP` = 0x03 (R71). -/
theorem test_decode_encode : decode 0x0000000000000003#64 = .ok .encode := by decide

/-- `OP` = 0x04 (R71). -/
theorem test_decode_decenc : decode 0x0000000000000004#64 = .ok .decenc := by decide

/-- `OP` = 0x05 (R71). -/
theorem test_decode_ldstate : decode 0x0000000000000005#64 = .ok .ldstate := by decide

/-- `M1` = FF, `M0` = 80, `B` = FF, `G` = `R` = 00, `POLL` = 4, `OP` = 0x10 (R73, V-CTRL-2); and V-CTRL-3. -/
theorem test_decode_ctrl :
    decode 0x00FF80FF00000410#64 = .ok (.ctrl 4 0 0 255 128 255) ∧
    decode 0x0000005634123F10#64 = .ok (.ctrl 63 0x12 0x34 0x56 0 0) := by decide

/-- `OP` = 0x11 (R71). -/
theorem test_decode_audio : decode 0x0000000000000011#64 = .ok .audio := by decide

/-- V-ERR-I1 to V-ERR-I5: unassigned opcodes. -/
theorem test_unassigned_opcodes :
    [0x00#64, 0x06#64, 0x0F#64, 0x12#64, 0xFF#64].all (fun w => decide (decode w = .error .unassignedOpcode)) = true := by
  decide

/-- V-ERR-I6 to V-ERR-I13: reserved bits. -/
theorem test_reserved_bits :
    [0x0102#64, 0x0103#64, 0x10001#64, 0x8000000000000001#64, 0x4010#64, 0x8010#64, 0x0100000000000010#64,
     0x8000000000000011#64].all (fun w => decide (decode w = .error .reservedBits)) = true := by decide

/-- R53: byte 0 holds `CMD[7:0]`; the bytes after the word are left; seven bytes are no word. -/
theorem test_decode_bytes :
    decodeBytes [0x10#8, 0x3F#8, 0x12#8, 0x34#8, 0x56#8, 0x00#8, 0x00#8, 0x00#8, 0xAA#8] =
      .ok (.ctrl 63 0x12 0x34 0x56 0 0, [0xAA#8]) ∧
    decodeBytes [0x02#8, 0x00#8, 0x00#8, 0x00#8, 0x00#8, 0x00#8, 0x00#8] = .error .tooShort := by decide

/-- The table's rows are 64 bits wide: a word in the table's numbering, and an illegal one. -/
theorem test_decode_table_word :
    decodeTableWord 64 0xC801 = some (.axcor 200) ∧ decodeTableWord 64 0x0102 = none := by decide

/-- No two rows of spec/opcode_table.json can match one word. -/
theorem test_rows_disjoint :
    opcodeTable.Pairwise (fun a b => (a.pattern ^^^ b.pattern) &&& a.mask &&& b.mask ≠ 0#64) := by decide

/- AXCOR -/

/-- V-AX-3, -4, -7, -8, -11, -12, -15, -16, -17. -/
theorem test_axcor_reference :
    ([0x05, 0x06, 0x79, 0x7A, 0x84, 0x85, 0xC8, 0xF8, 0xF9] : List Byte).map (fun r => headOf (exec (.axcor r) State.reset)) =
      ([0x8001, 0x8118, 0xFEE7, 0x0000, 0x0000, 0x0118, 0x4A64, 0x7EE7, 0x7FFF] : List Half).map
        (fun v => some (Status.ok, v, 0x00#8)) := by decide +kernel

/-- V-AX-C3 (span 1: 63 and 191 saturate), V-AX-C5 (12, 16), V-AX-X4, V-AX-X7 and V-AX-C6 (the least valid span). -/
theorem test_axcor_configurations :
    ([0x3F, 0x40, 0xBF] : List Byte).map (axisHalf (axisRegsOf (axisCfg 0 255 63))) = [0x8001#16, 0x0000#16, 0x7FFF#16] ∧
    ([0x0C, 0x10] : List Byte).map (axisHalf (axisRegsOf (axisCfg 10 20 0))) = [0xB333#16, 0x1999#16] ∧
    headOf (exec (.axcor 0) (State.resetWith (axisCfg 0 255 64))) = some (.configError, 0x0000#16, 0x00#8) ∧
    axisValid (axisCfg 0 21 5) = false ∧ axisValid (axisCfg 0 22 5) = true := by decide +kernel

/- DECODE and LDSTATE -/

/-- V-DEC-5: every mapped bit, dpad 0; V-DEC-8: the edges of the dead band, nibble 8. -/
theorem test_decode_reports :
    nextOf (exec .decode (rcWith (report 0x00 0x00 0x00 0x00 0xF0 0xF3 0xFF 0xFF 0xFF))) = some
      { rcWith (report 0x00 0x00 0x00 0x00 0xF0 0xF3 0xFF 0xFF 0xFF) with
        lstate := some ⟨0xFFF1#16, 0xFF#8, 0xFF#8, #v[0x8001#16, 0x8001#16, 0x8001#16, 0x8001#16]⟩
        resp := some ⟨.ok, 0x003F#16, 0x00#8, []⟩ } ∧
    latchOf (exec .decode (rcWith (report 0x79 0x7A 0x84 0x85 0x08 0x00 0x00 0x00 0x00))) =
      some (some ⟨0x0000#16, 0x00#8, 0x00#8, #v[0xFEE7#16, 0x0000#16, 0x0000#16, 0x0118#16]⟩, 0x0000#16) ∧
    headOf (exec .decode (rcWith (report 0x79 0x7A 0x84 0x85 0x08 0x00 0x00 0x00 0x00))) =
      some (.ok, 0x0000#16, 0x01#8) := by decide +kernel

/-- V-ERR-1, V-ERR-3, V-ERR-6, V-ERR-9: each error, from a state with `LSTATE_V = 1`, clears it. -/
theorem test_decode_errors :
    let short : State := { after4 with din := released.take 11 }
    let tag : State := { after4 with din := 0x01#8 :: released.tail }
    let dpad : State := { after4 with
      cfg := { Cfg.rc with dpadPolicy := .reject }, din := report 0x80 0x80 0x80 0x80 0xF8 0x00 0x00 0x00 0x00 }
    let config : State := { after4 with cfgOk := false }
    [short, tag, dpad, config].map (fun s => (headOf (exec .decode s), latchOf (exec .decode s))) =
      [Status.decodeShort, .decodeBadTag, .decodeDpad, .configError].map
        (fun e => (some (e, 0x0000#16, 0x00#8), some (none, 0x0000#16))) := by decide +kernel

/-- V-ENC-4: LDSTATE accepts any image. -/
theorem test_ldstate_image :
    nextOf (exec .ldstate (rcWith image4)) = some { rcWith image4 with
      lstate := some state4, resp := some ⟨.ok, 0x0000#16, 0x00#8, []⟩ } := by decide +kernel

/-- V-ENC-6: eleven bytes are refused and the latch stays. -/
theorem test_ldstate_length :
    nextOf (exec .ldstate { after4 with din := image4.take 11 }) = some { after4 with
      din := image4.take 11, resp := some ⟨.badLength, 0x0000#16, 0x00#8, []⟩ } := by decide +kernel

/- ENCODE and DECENC -/

/-- V-ENC-5: the packet of V-ENC-4. -/
theorem test_encode_packet :
    doutOf (exec .encode after4) =
      [0x01#8, 0xFF#8, 0xFF#8, 0x00#8, 0xFF#8, 0x00#8, 0x80#8, 0xFF#8, 0xFF#8, 0x01#8, 0x00#8, 0x34#8, 0x12#8] := by
  decide +kernel

/-- V-ENC-1: after reset there is no state to encode. -/
theorem test_encode_no_state : headOf (exec .encode State.reset) = some (.noState, 0x0000#16, 0x00#8) := by decide +kernel

/-- V-DE-4: the packet of the dead-band edges. -/
theorem test_decenc_packet :
    responseOf (exec .decenc (rcWith (report 0x79 0x7A 0x84 0x85 0x08 0x00 0x00 0x00 0x00))) = some ⟨.ok, 0x0000#16, 0x01#8,
      [0x01#8, 0x00#8, 0x00#8, 0x00#8, 0x00#8, 0xE7#8, 0xFE#8, 0x00#8, 0x00#8, 0x00#8, 0x00#8, 0x18#8, 0x01#8]⟩ := by
  decide +kernel

/-- V-DE-5: eleven bytes; no packet, and the latch is dropped. -/
theorem test_decenc_short :
    nextOf (exec .decenc { after4 with din := released.take 11 }) = some { after4 with
      din := released.take 11, lstate := none, resp := some ⟨.decodeShort, 0x0000#16, 0x00#8, []⟩ } := by decide +kernel

/- CTRL, AUDIO and the CRC -/

set_option maxRecDepth 20000 in
/-- V-CTRL-2: the first twelve bytes, the length and the trailer. -/
theorem test_ctrl_frame :
    let F := doutOf (exec (.ctrl 4 0 0 255 128 255) State.reset)
    F.take 12 = [0x11#8, 0xC4#8, 0x00#8, 0x07#8, 0x00#8, 0x00#8, 0x80#8, 0xFF#8, 0x00#8, 0x00#8, 0xFF#8, 0x00#8] ∧
    F.length = 78 ∧ F.drop 74 = [0x52#8, 0xB2#8, 0x43#8, 0x77#8] := by decide +kernel

set_option maxRecDepth 20000 in
/-- V-CTRL-3: three distinct colour bytes and `POLL` = 63. -/
theorem test_ctrl_colour :
    let F := doutOf (exec (.ctrl 63 0x12 0x34 0x56 0 0) State.reset)
    F.take 12 = [0x11#8, 0xFF#8, 0x00#8, 0x07#8, 0x00#8, 0x00#8, 0x00#8, 0x00#8, 0x12#8, 0x34#8, 0x56#8, 0x00#8] ∧
    F.drop 74 = [0x6A#8, 0x56#8, 0xDD#8, 0xAE#8] := by decide +kernel

set_option maxRecDepth 100000 in
/-- V-AUD-3: the counter in the header and `VALUE`, its wrap, and the trailer. -/
theorem test_audio_frame :
    let o := exec .audio { rcWith (List.replicate 448 0x00#8) with audCtr := 0xFFFC#16 }
    (doutOf o).take 6 = [0x17#8, 0x40#8, 0xA0#8, 0xFC#8, 0xFF#8, 0x02#8] ∧
    (doutOf o).drop 458 = [0x14#8, 0x23#8, 0x21#8, 0x34#8] ∧
    headOf o = some (.ok, 0xFFFC#16, 0x00#8) ∧ latchOf o = some (none, 0x0000#16) := by decide +kernel

/-- V-AUD-7: a short payload leaves the counter. -/
theorem test_audio_length :
    headOf (exec .audio { rcWith (List.replicate 447 0x00#8) with audCtr := 0x0008#16 }) =
      some (.badLength, 0x0000#16, 0x00#8) ∧
    latchOf (exec .audio { rcWith (List.replicate 447 0x00#8) with audCtr := 0x0008#16 }) = some (none, 0x0008#16) := by
  decide +kernel

/- Steps -/

/-- After reset a presented table word runs as the first command, its response held. -/
theorem test_first_command :
    responseOf (step (State.reset.withFetchWord 64 0xC801)) = some ⟨.ok, 0x4A64#16, 0x00#8, []⟩ := by decide +kernel

/-- V-ERR-I6: an illegal word is no DECODE; `LSTATE_V` stays. -/
theorem test_illegal_keeps_latch :
    nextOf (step { after4 with inbox := [.command 0x0000000000000102#64 released] }) = some { after4 with
      resp := some ⟨.illegalCmd, 0x0000#16, 0x00#8, []⟩ } := by decide +kernel

/-- R80, R81: lines of program P4 and a `din` line, as text. -/
theorem test_assembler_text :
    assembleText ["ctrl 0, 0, 0, 255, 128, 255   ; blue".toList, "hstop 0, 0, 0, 255".toList,
      "din [0x11,0,0xFF]".toList, "; no command".toList, "decenc".toList, "din zeros(2)".toList, "audio".toList] =
    some [.command 0x00FF80FF00000010#64 [], .command 0x000000FF00000010#64 [],
      .command 0x0000000000000004#64 [0x11#8, 0x00#8, 0xFF#8], .command 0x0000000000000011#64 [0x00#8, 0x00#8]] := by
  decide +kernel

/- Witnesses: a state and operands that meet all hypotheses of an obligation together, at boundary values, clause by clause -/

/-- RC is admissible: the premise of most witnesses below. -/
theorem rc_admissible : Cfg.rc.Admissible := by decide +kernel

/-- `Obligations.DecodeOfEncode`: the largest `POLL`. -/
theorem test_witness_DecodeOfEncode : WellFormed (.ctrl 63 255 255 255 255 255) := by decide

/-- `Obligations.EncodeOfDecode`: a word with every operand bit set. -/
theorem test_witness_EncodeOfDecode : decode 0x00FFFFFFFFFF3F10#64 = .ok (.ctrl 63 255 255 255 255 255) := by decide

/-- `Obligations.LegalExactlyWhenOneTableRowMatches`: a legal word and the row that matches it. -/
theorem test_witness_LegalExactlyWhenOneTableRowMatches :
    decode 0x000000000000FF01#64 = .ok (.axcor 255) ∧
    ∃ row ∈ opcodeTable, 0x000000000000FF01#64 &&& row.mask = row.pattern := by decide

/-- `Obligations.CommandWordCarriedLittleEndian`: the last byte, a legal word, an illegal word. -/
theorem test_witness_CommandWordCarriedLittleEndian :
    (∃ k, k = 7 ∧ k < 8) ∧ (∃ i, decode 0x0000000000000005#64 = .ok i) ∧ ∃ e, decode 0x0100000000000005#64 = .error e :=
  ⟨⟨7, rfl, by decide⟩, ⟨.ldstate, by decide⟩, ⟨.reservedBits, by decide⟩⟩

/-- `Obligations.AssemblerAgreesWithEncoder`: operands at the ends of their ranges, and one past. -/
theorem test_witness_AssemblerAgreesWithEncoder :
    (Asm.ctrl 63 255 255 255 255 255).inRange = true ∧ (Asm.axcor 256).inRange = false := by decide

/-- `Obligations.StepRunsDecodedCommand`: a command whose `DIN` has exactly `DIN_MAX` bytes, and what exec answers; a table word. -/
theorem test_witness_StepRunsDecodedCommand :
    (∃ (s t : State) (w : Word64) (din : List Byte) (rest : List HostAction) (i : Instr),
      s.cfg.Admissible ∧ s.resp = none ∧ s.inbox = .command w din :: rest ∧ din.length ≤ s.cfg.dinMax.val ∧
      decode w = .ok i ∧ exec i { s with din := din, inbox := rest } = .next t) ∧
    ∃ (s : State) (nbits w : Nat) (i : Instr),
      s.cfg.Admissible ∧ s.din.length ≤ s.cfg.dinMax.val ∧ decodeTableWord nbits w = some i :=
  ⟨⟨{ State.reset with inbox := [.command 0x0000000000000003#64 (List.replicate 512 0x00#8)] }, _, 0x0000000000000003#64,
      List.replicate 512 0x00#8, [], .encode, rc_admissible, rfl, rfl, by decide +kernel, by decide, rfl⟩,
    State.reset, 64, 0x11, .audio, rc_admissible, by decide, by decide⟩

/-- `Obligations.IllegalCommandChangesNoState`: opcode 0 from a state that holds a LogicalState. -/
theorem test_witness_IllegalCommandChangesNoState :
    ∃ (s : State) (w : Word64) (din : List Byte) (rest : List HostAction),
      s.cfg.Admissible ∧ s.resp = none ∧ s.inbox = .command w din :: rest ∧ din.length ≤ s.cfg.dinMax.val ∧
      ∀ row ∈ opcodeTable, w &&& row.mask ≠ row.pattern :=
  ⟨{ after4 with inbox := [.command 0x0000000000000000#64 released] }, 0x0000000000000000#64, released, [], rc_admissible, rfl,
    rfl, by decide, by decide⟩

/-- `Obligations.OverlongDinHasNoStep`: one byte over `DIN_MAX`. -/
theorem test_witness_OverlongDinHasNoStep :
    ∃ (s : State) (w : Word64) (din : List Byte) (rest : List HostAction),
      s.cfg.Admissible ∧ s.resp = none ∧ s.inbox = .command w din :: rest ∧ s.cfg.dinMax.val < din.length :=
  ⟨{ State.reset with inbox := [.command 0x0000000000000003#64 (List.replicate 513 0x00#8)] }, 0x0000000000000003#64,
    List.replicate 513 0x00#8, [], rc_admissible, rfl, rfl, by decide +kernel⟩

/-- An outcome whose response has status `st` is a next state with that response. -/
theorem next_of_head {o : Host.Outcome State Fault Refusal} {st : Status} {v : Half} {f : Byte}
    (h : headOf o = some (st, v, f)) : ∃ (t : State) (r : Response), o = .next t ∧ t.resp = some r ∧ r.status = st := by
  cases o with
  | next t =>
    cases hr : t.resp with
    | none => simp [headOf, responseOf, hr] at h
    | some r => exact ⟨t, r, rfl, hr, by simp [headOf, responseOf, hr] at h; exact h.1⟩
  | fault f => simp [headOf, responseOf] at h
  | refused q => simp [headOf, responseOf] at h

/-- An AUDIO of 448 zero bytes completes with OK. -/
theorem audio_ok : ∃ (t : State) (r : Response),
    exec .audio (rcWith (List.replicate 448 0x00#8)) = .next t ∧ t.resp = some r ∧ r.status = .ok :=
  next_of_head (v := 0x0000#16) (f := 0x00#8) (by decide +kernel)

/-- An AUDIO of no byte at all raises. -/
theorem audio_raises : ∃ (t : State) (r : Response),
    exec .audio after4 = .next t ∧ t.resp = some r ∧ r.status = .badLength :=
  next_of_head (v := 0x0000#16) (f := 0x00#8) (by decide +kernel)

/-- An LDSTATE of no byte at all raises. -/
theorem ldstate_raises : ∃ (t : State) (r : Response),
    exec .ldstate after4 = .next t ∧ t.resp = some r ∧ r.status = .badLength :=
  next_of_head (v := 0x0000#16) (f := 0x00#8) (by decide +kernel)

/-- A CTRL completes with OK. -/
theorem ctrl_ok : ∃ (t : State) (r : Response),
    exec (.ctrl 63 255 0 0 0 0) State.reset = .next t ∧ t.resp = some r ∧ r.status = .ok :=
  next_of_head (v := 0x0000#16) (f := 0x00#8) (by decide +kernel)

/-- A response held by the witnesses below. -/
def held : Response := ⟨.noState, 0x0000#16, 0x00#8, []⟩

/-- `Obligations.HeldResponseBlocksUntilTaken`: a state for each clause. -/
theorem test_witness_HeldResponseBlocksUntilTaken :
    (∃ (s : State) (r : Response), s.cfg.Admissible ∧ s.resp = some r ∧ ∃ w din rest, s.inbox = .command w din :: rest) ∧
    (∃ (s : State) (r : Response), s.cfg.Admissible ∧ s.resp = some r ∧ s.inbox = []) ∧
    (∃ (s : State) (r : Response), s.cfg.Admissible ∧ s.resp = some r ∧ ∃ rest, s.inbox = .takeResponse :: rest) :=
  ⟨⟨{ State.reset with resp := some held, inbox := [.command 0x03#64 []] }, held, rc_admissible, rfl, _, _, _, rfl⟩,
    ⟨{ State.reset with resp := some held }, held, rc_admissible, rfl, rfl⟩,
    ⟨{ State.reset with resp := some held, inbox := [.takeResponse] }, held, rc_admissible, rfl, _, rfl⟩⟩

/-- A step of a state with an admissible configuration that takes a response or is reset. -/
theorem step_reset {s : State} {c : Cfg} {rest : List HostAction} (ha : s.cfg.Admissible) (hc : c.Admissible)
    (hi : s.inbox = .reset c :: rest) : step s = .next { State.resetWith c with resp := s.resp, inbox := rest } := by
  unfold step serve
  rw [if_pos ha, hi]
  simp only [serveReset]
  rw [if_pos hc]

/-- `Obligations.HeldResponseIsNeverDropped`: a held response over the host's taking of it, and over a reset. -/
theorem test_witness_HeldResponseIsNeverDropped :
    (∃ (s t : State) (r : Response), step s = .next t ∧ s.resp = some r ∧ t.resp = none) ∧
    ∃ (s t : State) (r : Response), step s = .next t ∧ s.resp = some r ∧ t.resp = some r :=
  ⟨⟨{ State.reset with resp := some held, inbox := [.takeResponse] }, _, held, step_take rc_admissible rfl, rfl, rfl⟩,
    ⟨{ State.reset with resp := some held, inbox := [.reset Cfg.rc] }, _, held,
      step_reset rc_admissible rc_admissible rfl, rfl, rfl⟩⟩

/-- An ENCODE presented to the state after reset: the step it takes. -/
theorem step_encode_after_reset :
    step { State.reset with inbox := [.command 0x0000000000000003#64 []] } =
      .next { State.reset with resp := some held } := by
  rw [step_command (w := 0x0000000000000003#64) (din := []) (rest := []) rc_admissible rfl rfl (by decide)]
  rfl

/-- `Obligations.AcceptedCommandGivesOneResponse`. -/
theorem test_witness_AcceptedCommandGivesOneResponse :
    ∃ (s t : State) (w : Word64) (din : List Byte) (rest : List HostAction),
      step s = .next t ∧ s.inbox = .command w din :: rest :=
  ⟨_, _, 0x0000000000000003#64, [], [], step_encode_after_reset, rfl⟩

/-- `Obligations.IdleBlockKeepsItsState`: the state after reset. -/
theorem test_witness_IdleBlockKeepsItsState : ∃ s : State, s.cfg.Admissible ∧ s.inbox = [] ∧ s.resp = none :=
  ⟨State.reset, rc_admissible, rfl, rfl⟩

/-- `Obligations.ResetLeavesTheSpecValues`: V-AX-C6, the least valid span, and V-AX-X7, the greatest invalid one. -/
theorem test_witness_ResetLeavesTheSpecValues :
    (State.resetWith (axisCfg 0 22 5)).cfgOk = true ∧ (State.resetWith (axisCfg 0 21 5)).cfgOk = false := by decide

/-- `Obligations.ResetActionReloadsTheConfiguration`: an admissible configuration and one that is not. -/
theorem test_witness_ResetActionReloadsTheConfiguration :
    (∃ (s : State) (c : Cfg) (rest : List HostAction), s.cfg.Admissible ∧ s.inbox = .reset c :: rest ∧ c.Admissible) ∧
    ∃ (s : State) (c : Cfg) (rest : List HostAction), s.cfg.Admissible ∧ s.inbox = .reset c :: rest ∧ ¬ c.Admissible :=
  ⟨⟨{ State.reset with inbox := [.reset Cfg.rc] }, Cfg.rc, [], rc_admissible, rfl, rc_admissible⟩,
    ⟨{ State.reset with inbox := [.reset { Cfg.rc with dinMax := 447 }] }, { Cfg.rc with dinMax := 447 }, [], rc_admissible,
      rfl, by intro h; have := h.2.2.2.2.2.2.1; revert this; decide⟩⟩

/-- `Obligations.ConfigurationChangesOnlyAtReset`: a step that is no reset, one that is, and a command. -/
theorem test_witness_ConfigurationChangesOnlyAtReset :
    (∃ s t : State, step s = .next t ∧ t.cfg = s.cfg) ∧
    (∃ (s t : State) (c : Cfg), step s = .next t ∧ s.inbox = [.reset c] ∧ t.cfg ≠ s.cfg) ∧
    ∃ (i : Instr) (s t : State), exec i s = .next t :=
  ⟨⟨_, _, step_encode_after_reset, rfl⟩,
    ⟨{ State.reset with inbox := [.reset (axisCfg 0 255 64)] }, _, axisCfg 0 255 64,
      step_reset rc_admissible (by decide +kernel) rfl, rfl, by decide⟩,
    ⟨.encode, State.reset, _, rfl⟩⟩

/-- `Obligations.AxcorResult`: valid and invalid axis configurations, and a sample on each side of the dead band and at its
edges. -/
theorem test_witness_AxcorResult :
    State.reset.cfgOk = true ∧ (State.resetWith (axisCfg 0 255 64)).cfgOk = false ∧
    ((121 : Int) < State.reset.ax.low ∧ ¬ (122 : Int) < State.reset.ax.low) ∧
    (State.reset.ax.high < 133 ∧ ¬ State.reset.ax.high < 132) := by decide

/-- `Obligations.ClampSaturates`: the values where its clauses meet. -/
theorem test_witness_ClampSaturates :
    ((-32768 : Int) < -32767 ∧ (32767 : Int) < 32768) ∧ (-32767 : Int) ≤ -32767 ∧ (32767 : Int) ≤ 32767 := by decide

/-- `Obligations.DeadBandIsExactlyAtRest`, `Obligations.AxisConstantsStayInRange`: the greatest and the least valid span (V-AX-C1,
V-AX-C3). -/
theorem test_witness_DeadBandIsExactlyAtRest : axisValid (axisCfg 0 255 0) = true ∧ axisValid (axisCfg 0 255 63) = true := by
  decide

/-- `Obligations.AxisConstantsStayInRange`: V-AX-C4. -/
theorem test_witness_AxisConstantsStayInRange : axisValid (axisCfg 0 2 0) = true := by decide

/-- `Obligations.CorrectionIsOddUpToRounding`: the first distance outside the dead band. -/
theorem test_witness_CorrectionIsOddUpToRounding : axisValid Cfg.rc = true ∧ ((Cfg.rc.axisDz.val : Int) < 6) := by decide

/-- `Obligations.DecodeAcceptsReport`: nibble 7 with the tag checked, nibble 8 under NONE; twelve bytes are exactly enough; and the
last mask bit of a map entry whose report bit is set. -/
theorem test_witness_DecodeAcceptsReport :
    (∃ (s : State) (dp : Byte), s.cfg.Admissible ∧ s.cfgOk = true ∧ s.cfg.base.val + 10 ≤ s.din.length ∧
      (s.cfg.checkTag = true → s.din[0]? = some s.cfg.inTag) ∧
      s.din[s.cfg.base.val + s.cfg.offBtn0.val]? = some dp ∧ dp.toNat % 16 = 7 ∧ dp.toNat % 16 < 8) ∧
    (∃ (s : State) (dp : Byte), s.cfg.Admissible ∧ s.cfgOk = true ∧ s.cfg.base.val + 10 ≤ s.din.length ∧
      (s.cfg.checkTag = true → s.din[0]? = some s.cfg.inTag) ∧
      s.din[s.cfg.base.val + s.cfg.offBtn0.val]? = some dp ∧ 8 ≤ dp.toNat % 16 ∧ s.cfg.dpadPolicy = .none) ∧
    ∃ e ∈ Cfg.rc.mapEntries, e.mask.getLsbD 15 = true ∧
      ∃ b, (report 0 0 0 0 0x80 0 0 0 0)[Cfg.rc.base.val + e.off.val]? = some b ∧ b.getLsbD e.bit.val = true :=
  ⟨⟨rcWith (report 0x80 0x80 0x80 0x80 0xF7 0x00 0x00 0x00 0x00), 0xF7, rc_admissible, by decide, by decide, by decide, by decide,
      by decide, by decide⟩,
    ⟨rcWith released, 0x08, rc_admissible, by decide, by decide, by decide, by decide, by decide, by decide⟩,
    ⟨⟨5, 7, 0x8000#16⟩, by decide, by decide, 0x80, by decide, by decide⟩⟩

/-- `Obligations.DecodeErrorsInPriorityOrder`: a state for each clause, with eleven and with twelve bytes. -/
theorem test_witness_DecodeErrorsInPriorityOrder :
    (∃ s : State, s.cfgOk = false) ∧
    (∃ s : State, s.cfgOk = true ∧ s.din.length + 1 = s.cfg.base.val + 10 ∧ s.din.length < s.cfg.base.val + 10) ∧
    (∃ s : State, s.cfgOk = true ∧ s.cfg.base.val + 10 ≤ s.din.length ∧ s.cfg.checkTag = true ∧
      s.din[0]? ≠ some s.cfg.inTag) ∧
    ∃ (s : State) (dp : Byte), s.cfgOk = true ∧ s.cfg.base.val + 10 ≤ s.din.length ∧
      (s.cfg.checkTag = true → s.din[0]? = some s.cfg.inTag) ∧
      s.din[s.cfg.base.val + s.cfg.offBtn0.val]? = some dp ∧ 8 ≤ dp.toNat % 16 ∧ s.cfg.dpadPolicy = .reject :=
  ⟨⟨{ after4 with cfgOk := false }, rfl⟩, ⟨rcWith (released.take 11), by decide, by decide, by decide⟩,
    ⟨rcWith (0x01#8 :: released.tail), by decide, by decide, by decide, by decide⟩,
    ⟨{ rcWith released with cfg := { Cfg.rc with dpadPolicy := .reject } }, 0x08, by decide, by decide, by decide, by decide,
      by decide, by decide⟩⟩

/-- A failing and a succeeding DECENC: what exec answers. -/
theorem decenc_short :
    exec .decenc (rcWith []) = .next { rcWith [] with resp := some ⟨.decodeShort, 0x0000#16, 0x00#8, []⟩ } := rfl

/-- `Obligations.DecencIsDecodeThenEncode`: both outcomes. -/
theorem test_witness_DecencIsDecodeThenEncode :
    (∃ s t : State, exec .decenc s = .next t ∧ t.lstate = none) ∧
    ∃ s : State, (nextOf (exec .decenc s)).isSome = true ∧ headOf (exec .decode s) = some (.ok, 0x0000#16, 0x01#8) :=
  ⟨⟨_, _, decenc_short, rfl⟩, ⟨rcWith released, by decide +kernel, by decide +kernel⟩⟩

/-- `Obligations.FailedDecodeWithholdsPacket`: a short report after a good state. -/
theorem test_witness_FailedDecodeWithholdsPacket :
    ∃ (i : Instr) (s m : State) (r : Response), (i = .decode ∨ i = .decenc) ∧ exec i s = .next m ∧ m.resp = some r ∧
      r.status ≠ .ok ∧ s.lstate = some state4 :=
  ⟨.decenc, after4, _, _, .inr rfl, rfl, rfl, by decide, rfl⟩

/-- `Obligations.ReportTailIsIgnored`: twelve bytes, and the same with one more. -/
theorem test_witness_ReportTailIsIgnored :
    ∃ (i : Instr) (s : State) (din' : List Byte), (i = .decode ∨ i = .decenc) ∧ s.cfg.Admissible ∧
      s.cfg.base.val + 10 ≤ s.din.length ∧ s.cfg.base.val + 10 ≤ din'.length ∧
      s.din.take (s.cfg.base.val + 10) = din'.take (s.cfg.base.val + 10) ∧ s.din ≠ din' ∧
      (nextOf (exec i s)).isSome = true :=
  ⟨.decode, rcWith released, released ++ [0xFF#8], .inl rfl, rc_admissible, by decide, by decide, by decide, by decide,
    by decide +kernel⟩

/-- `Obligations.LdstateLatchesImage`, `Obligations.LoadedImageIsThePacket`: the image of V-ENC-4. -/
theorem test_witness_LdstateLatchesImage :
    ∃ (s : State) (b0 b1 b2 b3 b4 b5 b6 b7 b8 b9 b10 b11 : Byte),
      s.din = [b0, b1, b2, b3, b4, b5, b6, b7, b8, b9, b10, b11] := ⟨rcWith image4, _, _, _, _, _, _, _, _, _, _, _, _, rfl⟩

/-- `Obligations.LoadedImageIsThePacket`. -/
theorem test_witness_LoadedImageIsThePacket : ∃ s m : State, s.din.length = 12 ∧ exec .ldstate s = .next m :=
  ⟨rcWith image4, _, rfl, rfl⟩

/-- `Obligations.BadLengthChangesNoState`: one byte short and one byte over, for each command. -/
theorem test_witness_BadLengthChangesNoState :
    ((rcWith (List.replicate 11 0)).din.length ≠ 12 ∧ (rcWith (List.replicate 13 0)).din.length ≠ 12) ∧
    (rcWith (List.replicate 447 0)).din.length ≠ Cfg.rc.audN.val ∧
    (rcWith (List.replicate 449 0)).din.length ≠ Cfg.rc.audN.val := by decide +kernel

/-- `Obligations.EncodeEmitsWirePacket`: with and without a latched state. -/
theorem test_witness_EncodeEmitsWirePacket : after4.lstate = some state4 ∧ State.reset.lstate = none := ⟨rfl, rfl⟩

/-- `Obligations.ControlFrameLayout`: the first and the last template byte that no field writes. -/
theorem test_witness_ControlFrameLayout :
    State.reset.cfg.Admissible ∧
    ([2, 73] : List U8).all (fun k => decide (k.val < Cfg.rc.ctrlLen.val ∧ k ≠ 0 ∧ k ∉ Cfg.rc.ctrlOffsets)) = true :=
  ⟨rc_admissible, by decide⟩

/-- `Obligations.ModeByteCarriesPollRate`: `POLL` = 63 for the first clause, 64 for the second. -/
theorem test_witness_ModeByteCarriesPollRate :
    (∃ (poll r g b m0 m1 : Byte) (s t : State) (rsp : Response), s.cfg.Admissible ∧ WellFormed (.ctrl poll r g b m0 m1) ∧
      exec (.ctrl poll r g b m0 m1) s = .next t ∧ t.resp = some rsp) ∧
    ∃ poll : Byte, 64 ≤ poll.toNat := by
  obtain ⟨t, r, h, hr, -⟩ := ctrl_ok
  exact ⟨⟨63, 255, 0, 0, 0, 0, State.reset, t, r, rc_admissible, by decide, h, hr⟩, 64, by decide⟩

/-- `Obligations.FrameCrcRoundTrip`: a CTRL and an AUDIO that complete with OK. -/
theorem test_witness_FrameCrcRoundTrip :
    (∃ (s t : State) (r : Response), exec (.ctrl 63 255 0 0 0 0) s = .next t ∧ t.resp = some r ∧ r.status = .ok) ∧
    ∃ (s t : State) (r : Response), exec .audio s = .next t ∧ t.resp = some r ∧ r.status = .ok :=
  ⟨⟨State.reset, ctrl_ok⟩, ⟨_, audio_ok⟩⟩

/-- `Obligations.AudioFrameLayout`: the last index of each of its ranges. -/
theorem test_witness_AudioFrameLayout :
    State.reset.cfg.Admissible ∧ (rcWith (List.replicate 448 0x00#8)).din.length = Cfg.rc.audN.val ∧
    (5 < 6 ∧ 5 ≠ Cfg.rc.offCtr.val ∧ 5 ≠ Cfg.rc.offCtr.val + 1) ∧ 447 < Cfg.rc.audN.val :=
  ⟨rc_admissible, by decide +kernel, by decide, by decide⟩

/-- `Obligations.OnlySuccessfulAudioAdvancesCounter`: an AUDIO with OK, an AUDIO that raises, another command. -/
theorem test_witness_OnlySuccessfulAudioAdvancesCounter :
    (∃ (s t : State) (r : Response), exec .audio s = .next t ∧ t.resp = some r ∧ r.status = .ok) ∧
    (∃ (s t : State) (r : Response), exec .audio s = .next t ∧ t.resp = some r ∧ r.status = .badLength) ∧
    ∃ (s t : State), exec .encode s = .next t :=
  ⟨⟨_, audio_ok⟩, ⟨_, audio_raises⟩, ⟨State.reset, _, rfl⟩⟩

/-- `Obligations.AudioSequenceAdvancesOncePerFrame`: two frames, then a third command; the second frame's index. -/
theorem test_witness_AudioSequenceAdvancesOncePerFrame :
    ∃ (s : State) (payloads : List (List Byte)) (rest : List HostAction),
      s.cfg.Admissible ∧ s.resp = none ∧ s.din = [] ∧ (∀ p ∈ payloads, p.length = s.cfg.audN.val) ∧
      s.inbox = payloads.flatMap (fun p => [.command 0x0000000000000011#64 p, .takeResponse]) ++ rest ∧
      1 < payloads.length :=
  ⟨{ State.reset with
      inbox := ([List.replicate 448 0x00#8, List.replicate 448 0xFF#8].flatMap fun p =>
        [HostAction.command 0x0000000000000011#64 p, HostAction.takeResponse]) ++ [.command 0x0000000000000003#64 []] },
    [List.replicate 448 0x00#8, List.replicate 448 0xFF#8], [.command 0x0000000000000003#64 []], rc_admissible, rfl, rfl,
    fun p hp => by
      simp only [List.mem_cons, List.not_mem_nil, or_false] at hp
      rcases hp with rfl | rfl <;> exact List.length_replicate, rfl, by decide⟩

/-- `Obligations.AudioFramesWithinPeriodAreDistinct`: two frames under a stride of 2^15, whose period is 2: the greatest difference
of places that the statement speaks of. -/
theorem test_witness_AudioFramesWithinPeriodAreDistinct :
    ∃ (s : State) (payloads : List (List Byte)) (rest : List HostAction) (j k : Nat),
      s.cfg.Admissible ∧ s.resp = none ∧ s.din = [] ∧ (∀ p ∈ payloads, p.length = s.cfg.audN.val) ∧
      s.inbox = payloads.flatMap (fun p => [.command 0x0000000000000011#64 p, .takeResponse]) ++ rest ∧
      j < k ∧ k < payloads.length ∧ k - j < 2 ^ 16 / Nat.gcd s.cfg.audStride.toNat (2 ^ 16) ∧
      ¬ k - j + 1 < 2 ^ 16 / Nat.gcd s.cfg.audStride.toNat (2 ^ 16) :=
  ⟨{ State.resetWith { Cfg.rc with audN := 0, audStride := 0x8000#16 } with
      inbox := [.command 0x0000000000000011#64 [], .takeResponse, .command 0x0000000000000011#64 [], .takeResponse] },
    [[], []], [], 0, 1, by decide +kernel, rfl, rfl, by decide, rfl, by decide, by decide, by decide, by decide⟩

/-- `Obligations.CommandFrame`: a command of each clause. -/
theorem test_witness_CommandFrame :
    (∃ t : State, exec .encode after4 = .next t) ∧ (∃ t : State, exec .audio after4 = .next t) ∧
    ∃ t : State, exec .decode after4 = .next t := by
  obtain ⟨t, _, h, _⟩ := audio_raises
  exact ⟨⟨_, rfl⟩, ⟨t, h⟩, ⟨_, rfl⟩⟩

/-- `Obligations.LatchValidity`: a state for each clause. -/
theorem test_witness_LatchValidity :
    (∃ (s t : State) (r : Response), exec .ldstate s = .next t ∧ t.resp = some r ∧ r.status = .ok) ∧
    (∃ (s t : State) (r : Response), exec .decode s = .next t ∧ t.resp = some r ∧ r.status ≠ .ok) ∧
    (∃ (s t : State) (r : Response), exec .encode s = .next t ∧ t.resp = some r) ∧
    ∃ (s t : State) (r : Response), exec .ldstate s = .next t ∧ t.resp = some r ∧ r.status ≠ .ok := by
  obtain ⟨t, r, h, hr, hs⟩ := ldstate_raises
  exact ⟨⟨rcWith image4, _, _, rfl, rfl, rfl⟩, ⟨after4, _, _, rfl, rfl, by decide⟩, ⟨after4, _, _, rfl, rfl⟩,
    ⟨after4, t, r, h, hr, by simp [hs]⟩⟩

/-- `Obligations.CommandsButAudioAreIdempotent`: LDSTATE, which writes state. -/
theorem test_witness_CommandsButAudioAreIdempotent : ∃ (i : Instr) (s t : State), i ≠ .audio ∧ exec i s = .next t :=
  ⟨.ldstate, rcWith image4, _, by decide, rfl⟩

/-- `Obligations.ErrorResponsesAreEmpty`: an error response. -/
theorem test_witness_ErrorResponsesAreEmpty :
    ∃ (i : Instr) (s t : State) (r : Response), exec i s = .next t ∧ t.resp = some r ∧ r.status ≠ .ok :=
  ⟨.encode, State.reset, _, _, rfl, rfl, by decide⟩

/-- `Obligations.FlagsOnlySayDpadNone`: the first flag bit that is always 0; a DECODE with `DPAD_NONE` set, and one without. -/
theorem test_witness_FlagsOnlySayDpadNone :
    (∃ (i : Instr) (s t : State) (r : Response), exec i s = .next t ∧ t.resp = some r ∧ 1 ≤ 1) ∧
    headOf (exec .decode (rcWith released)) = some (.ok, 0x0000#16, 0x01#8) ∧
    headOf (exec .decode (rcWith (report 0x80 0x80 0x80 0x80 0x07 0 0 0 0))) = some (.ok, 0x0000#16, 0x00#8) :=
  ⟨⟨.encode, State.reset, _, _, rfl, rfl, by decide⟩, by decide +kernel, by decide +kernel⟩

/-- `Obligations.DinIgnoredByCommandsThatDoNotReadIt`: ENCODE. -/
theorem test_witness_DinIgnoredByCommandsThatDoNotReadIt :
    ∃ (i : Instr) (s t : State), i ≠ .decode ∧ i ≠ .decenc ∧ i ≠ .ldstate ∧ i ≠ .audio ∧ exec i s = .next t :=
  ⟨.encode, after4, _, by decide, by decide, by decide, by decide, rfl⟩

/-- `Obligations.ConfigErrorStopsOnlyAxisCommands`: V-AX-X4, and a command of the second clause. -/
theorem test_witness_ConfigErrorStopsOnlyAxisCommands :
    (State.resetWith (axisCfg 0 255 64)).cfgOk = false ∧
    ∃ (i : Instr) (s t : State), (∀ raw, i ≠ .axcor raw) ∧ i ≠ .decode ∧ i ≠ .decenc ∧ exec i s = .next t :=
  ⟨by decide, .encode, after4, _, by simp, by decide, by decide, rfl⟩

/-- `Obligations.EveryCommandAnswers`, `Obligations.InvariantHoldsAtReset`: RC is admissible, and so is another configuration. -/
theorem test_witness_EveryCommandAnswers : ∃ s : State, s.cfg.Admissible := ⟨State.reset, rc_admissible⟩

/-- `Obligations.InvariantHoldsAtReset`: a configuration with a degenerate axis triple. -/
theorem test_witness_InvariantHoldsAtReset : ∃ c : Cfg, c.Admissible ∧ axisValid c = false :=
  ⟨axisCfg 0 255 64, by decide +kernel, by decide⟩

/-- The invariant holds of a state under RC as reset leaves it but for the counter, the latch, the held response and what the host
side does next. -/
theorem inv_of_rc {s : State} (hc : s.cfg = Cfg.rc) (ho : s.cfgOk = axisValid Cfg.rc) (hx : s.ax = axisRegsOf Cfg.rc)
    (hn : s.audCtr = 0xFFFC#16) (hr : s.resp = some held ∨ s.resp = none) : s.Inv where
  admissible := hc ▸ rc_admissible
  derived := ⟨hc ▸ ho, hc ▸ hx⟩
  onStride := ⟨16383, by rw [hn, hc]; decide⟩
  shaped := fun r h => by
    rcases hr with hr | hr
    · rw [hr] at h; cases h; exact ⟨fun _ => ⟨rfl, rfl, rfl⟩, .inl rfl⟩
    · rw [hr] at h; cases h

/-- `Obligations.StepKeepsInvariant`: the last counter value before the wrap, a latched state, a response about to be taken. -/
theorem test_witness_StepKeepsInvariant : ∃ s t : State, s.Inv ∧ step s = .next t :=
  ⟨{ after4 with audCtr := 0xFFFC#16, resp := some held, inbox := [.takeResponse] }, _,
    inv_of_rc rfl rfl rfl rfl (.inl rfl), step_take rc_admissible rfl⟩

/-- `Obligations.StepStopsOnlyWhereTheSpecSays`: a state that meets the invariant for each stop. -/
theorem test_witness_StepStopsOnlyWhereTheSpecSays :
    (∃ s : State, s.Inv ∧ step s = .fault .responseHeld) ∧ (∃ s : State, s.Inv ∧ step s = .refused .dinTooLong) ∧
    ∃ s : State, s.Inv ∧ step s = .refused .inadmissibleCfg := by
  refine ⟨⟨{ State.reset with audCtr := 0xFFFC#16, resp := some held }, inv_of_rc rfl rfl rfl rfl (.inl rfl), ?_⟩,
    ⟨{ State.reset with audCtr := 0xFFFC#16, inbox := [.command 0x03#64 (List.replicate 513 0x00#8)] },
      inv_of_rc rfl rfl rfl rfl (.inr rfl), ?_⟩,
    ⟨{ State.reset with audCtr := 0xFFFC#16, inbox := [.reset { Cfg.rc with offCtr := 0 }] },
      inv_of_rc rfl rfl rfl rfl (.inr rfl), ?_⟩⟩
  · unfold step serve; exact (if_pos rc_admissible).trans rfl
  · have h : Cfg.rc.dinMax.val < (List.replicate 513 0x00#8).length := by decide +kernel
    unfold step serve
    exact (if_pos rc_admissible).trans ((if_neg (show ¬ (none : Option Response).isSome = true by decide)).trans (if_pos h))
  · unfold step serve
    exact (if_pos rc_admissible).trans (if_neg (fun h => absurd h.2.2.2.2.2.1 (by decide)))

/-- `Obligations.SetIfNeverClearsABit`, `Obligations.BitReadsOneBitOrNothing`: the last bit, and one past the last byte and bit. -/
theorem test_witness_BitReadsOneBitOrNothing :
    (1 < [0x00#8, 0x80#8].length ∧ 7 ≤ 7) ∧ [0x00#8, 0x80#8].length ≤ 2 ∧ 7 < 8 := by decide

/-- `Obligations.SetIfNeverClearsABit`: a bit that is set, and a bit of the mask. -/
theorem test_witness_SetIfNeverClearsABit :
    (0x0001#16).getLsbD 0 = true ∧ ∃ c : Bool, c = true ∧ (0x8000#16).getLsbD 15 = true :=
  ⟨by decide, true, rfl, by decide⟩

end Sys2Proof.Machine.Tests
end

section
/-! PROOFS of the statements on the scope of the block (spec/00_scope.md): what a command does to the state, said once as
"a state write, then a response"; that it answers; the outcomes of a step; the invariant. -/

namespace Sys2Proof.Machine

/-! ### Responses -/

/-- R240: an error response, as `raise` gives it, has the shape of R240 and R29. -/
theorem Response.Shaped.of_error (e : Status) : Response.Shaped ⟨e, 0x0000#16, 0x00#8, []⟩ :=
  ⟨fun _ => ⟨rfl, rfl, rfl⟩, .inl rfl⟩

/-- An `OK` response has the shape of R240 and R29 when its `FLAGS` bits 7:1 are 0. -/
theorem Response.Shaped.of_ok {f : Byte} (hf : f = 0x00#8 ∨ f = 0x01#8) (v : Half) (d : List Byte) :
    Response.Shaped ⟨.ok, v, f, d⟩ :=
  ⟨fun h => absurd rfl h, hf⟩

theorem flagsByte_cases (b : Bool) : flagsByte b = 0x00#8 ∨ flagsByte b = 0x01#8 := by
  cases b
  · exact .inl rfl
  · exact .inr rfl

/-! ### What a command does when it answers a next state -/

/-- Every command that answers is one state write (of the latch, perhaps with its own value, or of the counter) and then one
response, `OK` or of a status the command may raise, of the shape of R240 and R29. -/
theorem exec_next_eq_respond {i : Instr} {s t : State} (h : exec i s = .next t) :
    ∃ (m : State) (r : Response), t = respond r m ∧ ((∃ l, m = { s with lstate := l }) ∨ m = advanceCounter s) ∧
      (r.status = .ok ∨ r.status ∈ mayRaise i) ∧ r.Shaped := by
  rcases exec_next_cases h with ⟨e, he, -, -, rfl⟩ | ⟨e, he, -, -, rfl⟩ | ⟨d, out, -, -, rfl⟩ | ⟨raw, -, -, rfl⟩ |
    ⟨l, -, -, rfl⟩ | ⟨l, -, -, -, rfl⟩ | ⟨poll, r, g, b, m0, m1, -, rfl⟩ | ⟨-, -, rfl⟩
  · exact ⟨s, _, rfl, .inl ⟨s.lstate, rfl⟩, .inr he, .of_error e⟩
  · exact ⟨dropLatch s, _, rfl, .inl ⟨none, rfl⟩, .inr he, .of_error e⟩
  · exact ⟨latch d.lstate s, _, rfl, .inl ⟨some d.lstate, rfl⟩, .inl rfl, .of_ok (flagsByte_cases _) _ _⟩
  · exact ⟨s, _, rfl, .inl ⟨s.lstate, rfl⟩, .inl rfl, .of_ok (.inl rfl) _ _⟩
  · exact ⟨s, _, rfl, .inl ⟨s.lstate, rfl⟩, .inl rfl, .of_ok (.inl rfl) _ _⟩
  · exact ⟨latch l s, _, rfl, .inl ⟨some l, rfl⟩, .inl rfl, .of_ok (.inl rfl) _ _⟩
  · exact ⟨s, _, rfl, .inl ⟨s.lstate, rfl⟩, .inl rfl, .of_ok (.inl rfl) _ _⟩
  · exact ⟨advanceCounter s, _, rfl, .inr rfl, .inl rfl, .of_ok (.inl rfl) _ _⟩

/-- R5, R240: a command that answers leaves one response held. -/
theorem exec_next_resp {i : Instr} {s t : State} (h : exec i s = .next t) :
    ∃ r, t.resp = some r ∧ (r.status = .ok ∨ r.status ∈ mayRaise i) ∧ r.Shaped := by
  obtain ⟨m, r, rfl, -, hr, hsh⟩ := exec_next_eq_respond h
  exact ⟨r, rfl, hr, hsh⟩

/-- What no command writes: the configuration, what reset derived from it, and the buffers of the port. -/
theorem exec_next_frame {i : Instr} {s t : State} (h : exec i s = .next t) :
    t.cfg = s.cfg ∧ t.cfgOk = s.cfgOk ∧ t.ax = s.ax ∧ t.din = s.din ∧ t.inbox = s.inbox := by
  obtain ⟨m, r, rfl, ⟨l, rfl⟩ | rfl, -, -⟩ := exec_next_eq_respond h
  · exact ⟨rfl, rfl, rfl, rfl, rfl⟩
  · exact ⟨rfl, rfl, rfl, rfl, rfl⟩

/-! ### Every command answers under an admissible configuration -/

/-- R101: DECODE_CORE meets no bounds error under an admissible configuration. -/
theorem decodeReport_isSome {s : State} (h : s.cfg.Admissible) : ∃ r, decodeReport s = some r := by
  rcases decodeReport_cases s with ⟨-, hd⟩ | ⟨-, -, hd⟩ | ⟨-, -, -, hd⟩ | ⟨-, hl, -, hb, -⟩ | ⟨-, -, -, -, -, -, hd⟩ |
    ⟨-, seed, dn, -, hl, -, -, -, hd⟩
  · exact ⟨_, hd⟩
  · exact ⟨_, hd⟩
  · exact ⟨_, hd⟩
  · obtain ⟨b, hb'⟩ := reportByte_isSome h (o := s.cfg.offBtn0) (by simp [Cfg.reportOffsets]) hl
    cases hb.symm.trans hb'
  · exact ⟨_, hd⟩
  · obtain ⟨d, hf⟩ := reportFields_isSome h s.ax hl seed dn
    exact ⟨.ok d, by rw [hd, hf]; rfl⟩

theorem decodeCore_answers (f : LogicalState → List Byte) {s : State} (h : s.cfg.Admissible) :
    ∃ t, decodeCore f s = .next t := by
  obtain ⟨r, hr⟩ := decodeReport_isSome h
  cases r with
  | error e => exact ⟨_, decodeCore_of_error f hr⟩
  | ok d => exact ⟨_, decodeCore_of_ok f hr⟩

theorem execLdstate_answers (s : State) : ∃ t, execLdstate s = .next t := by
  by_cases hl : s.din.length = 12
  · obtain ⟨l, hi⟩ := imageState_isSome hl
    exact ⟨_, by rw [execLdstate, if_pos hl, hi]⟩
  · exact ⟨_, if_neg hl⟩

/-- R10, R101: no command ends in a fault or a refusal under an admissible configuration. -/
theorem exec_answers (i : Instr) {s : State} (h : s.cfg.Admissible) : ∃ t, exec i s = .next t := by
  cases i with
  | axcor raw => cases hc : s.cfgOk <;> simp [exec_axcor, execAxcor, hc]
  | decode => exact decodeCore_answers (fun _ => []) h
  | encode => cases hl : s.lstate <;> simp [exec_encode, execEncode, hl]
  | decenc => exact decodeCore_answers wire h
  | ldstate => exact execLdstate_answers s
  | ctrl poll r g b m0 m1 => exact ⟨_, rfl⟩
  | audio => by_cases hl : s.din.length = s.cfg.audN.val <;> simp [exec_audio, execAudio, hl]

/-! ### The port -/

/-- R79: a legal word runs its command. -/
theorem performWord_of_ok {w : Word64} {i : Instr} (h : decode w = .ok i) (s : State) : performWord w s = exec i s := by
  rw [performWord, h]

/-- R76: an illegal word raises ILLEGAL_CMD. -/
theorem performWord_of_error {w : Word64} {e : DecodeReject} (h : decode w = .error e) (s : State) :
    performWord w s = .next (raise .illegalCmd s) := by
  rw [performWord, h]

theorem performWord_answers (w : Word64) {s : State} (h : s.cfg.Admissible) : ∃ t, performWord w s = .next t := by
  cases hd : decode w with
  | ok i => rw [performWord_of_ok hd]; exact exec_answers i h
  | error e => exact ⟨_, performWord_of_error hd s⟩

/-- The instruction of a table word is the one its word decodes to (R53, R78, log 17). -/
theorem decode_tableWord {nbits w : Nat} {i : Instr} (h : decodeTableWord nbits w = some i) :
    decode (tableWord nbits w) = .ok i := by
  unfold decodeTableWord at h
  by_cases hn : nbits ≤ 64
  · cases hd : decode (tableWord nbits w) with
    | ok j =>
      simp only [if_pos hn, decodeBytes, wordBytes, wordOfBytes_wordBytes, hd, Option.some.injEq] at h
      rw [h]
    | error e => simp [hn, decodeBytes, wordBytes, wordOfBytes_wordBytes, hd] at h
  · simp [hn] at h

section
variable {s : State}

theorem step_eq_serveIdle (ha : s.cfg.Admissible) (hi : s.inbox = []) : step s = serveIdle s := by
  unfold step serve
  rw [if_pos ha, hi]

theorem step_eq_serveCommand {w : Word64} {din : List Byte} {rest : List HostAction} (ha : s.cfg.Admissible)
    (hi : s.inbox = .command w din :: rest) : step s = serveCommand w din rest s := by
  unfold step serve
  rw [if_pos ha, hi]

theorem step_eq_serveReset {c : Cfg} {rest : List HostAction} (ha : s.cfg.Admissible)
    (hi : s.inbox = .reset c :: rest) : step s = serveReset c rest s := by
  unfold step serve
  rw [if_pos ha, hi]

end

/-- The outcomes of a step under an admissible configuration: a next state, or one of the three stops of R277, R51 and R7. -/
theorem step_outcome_cases {s : State} (ha : s.cfg.Admissible) :
    (∃ t, step s = .next t) ∨
    (step s = .fault .responseHeld ∧ (∃ r, s.resp = some r) ∧
      (s.inbox = [] ∨ ∃ w din rest, s.inbox = .command w din :: rest)) ∨
    (step s = .refused .dinTooLong ∧
      ∃ w din rest, s.inbox = .command w din :: rest ∧ s.cfg.dinMax.val < din.length) ∨
    (step s = .refused .inadmissibleCfg ∧ ∃ c rest, s.inbox = .reset c :: rest ∧ ¬ c.Admissible) := by
  cases hi : s.inbox with
  | nil =>
    rw [step_eq_serveIdle ha hi, serveIdle]
    cases hr : s.resp with
    | none => exact .inl ⟨s, rfl⟩
    | some r => exact .inr (.inl ⟨rfl, ⟨r, rfl⟩, .inl rfl⟩)
  | cons act rest =>
    cases act with
    | command w din =>
      cases hr : s.resp with
      | some r =>
        exact .inr (.inl ⟨by simp [step_eq_serveCommand ha hi, serveCommand, hr], ⟨r, rfl⟩, .inr ⟨w, din, rest, rfl⟩⟩)
      | none =>
        by_cases hl : s.cfg.dinMax.val < din.length
        · exact .inr (.inr (.inl ⟨by simp [step_eq_serveCommand ha hi, serveCommand, hr, hl], w, din, rest, rfl, hl⟩))
        · obtain ⟨m, hm⟩ := performWord_answers w (s := openBuffers din rest s) ha
          exact .inl ⟨_, by rw [step_command ha hi hr (by omega), hm, closeBuffers_next]⟩
    | takeResponse => exact .inl ⟨_, step_take ha hi⟩
    | reset c =>
      rw [step_eq_serveReset ha hi, serveReset]
      by_cases hc : c.Admissible
      · exact .inl ⟨_, if_pos hc⟩
      · exact .inr (.inr (.inr ⟨if_neg hc, c, rest, rfl, hc⟩))

/-- A command the block accepts: no response was held, and what it leaves is the answer of its command, or ILLEGAL_CMD, from
the opened buffers, with the input buffer gone. -/
theorem step_command_next {s t : State} {w : Word64} {din : List Byte} {rest : List HostAction}
    (h : step s = .next t) (hi : s.inbox = .command w din :: rest) :
    s.resp = none ∧ ∃ m, t = { m with din := [] } ∧
      ((∃ i, decode w = .ok i ∧ exec i (openBuffers din rest s) = .next m) ∨
       (∃ e, decode w = .error e ∧ m = raise .illegalCmd (openBuffers din rest s))) := by
  obtain ⟨-, ⟨hi', -, -⟩ | ⟨w', din', rest', hi', hr, -, hm⟩ | ⟨_, hi', -⟩ | ⟨_, _, hi', -, -⟩⟩ := step_next_cases h
  · cases hi.symm.trans hi'
  · cases hi.symm.trans hi'
    exact ⟨hr, hm⟩
  · cases hi.symm.trans hi'
  · cases hi.symm.trans hi'

/-! ### The invariant -/

namespace State.Inv
variable {s : State}

/-- The invariant says nothing of the input buffer and the host side's actions, and of the held response its shape alone. -/
theorem setPort (hs : s.Inv) (din : List Byte) {o : Option Response} (ho : ∀ r, o = some r → r.Shaped)
    (rest : List HostAction) : State.Inv { s with din := din, resp := o, inbox := rest } :=
  ⟨hs.admissible, hs.derived, hs.onStride, ho⟩

/-- The invariant says nothing of the latch. -/
theorem setLstate (hs : s.Inv) (l : Option LogicalState) : State.Inv { s with lstate := l } :=
  ⟨hs.admissible, hs.derived, hs.onStride, hs.shaped⟩

theorem respond_shaped (hs : s.Inv) {r : Response} (hr : r.Shaped) : (respond r s).Inv :=
  hs.setPort s.din (by rintro r' ⟨⟩; exact hr) s.inbox

/-- R23, R276: one advance is one stride more. -/
theorem advance_counter (hs : s.Inv) : (advanceCounter s).Inv := by
  obtain ⟨k, hk⟩ := hs.onStride
  have hctr : (advanceCounter s).CounterOnStride := ⟨k + 1, by
    rw [advanceCounter_audCtr, advanceCounter_cfg, hk, Nat.add_one_mul, BitVec.ofNat_add, BitVec.ofNat_toNat,
      BitVec.setWidth_eq]⟩
  exact ⟨hs.admissible, hs.derived, hctr, hs.shaped⟩

/-- R270: reset under an admissible configuration establishes the invariant. -/
theorem of_reset {c : Cfg} (hc : c.Admissible) : (State.resetWith c).Inv where
  admissible := hc
  derived := ⟨rfl, rfl⟩
  onStride := ⟨0, by rw [Nat.zero_mul]; rfl⟩
  shaped := nofun

theorem exec_next {i : Instr} {t : State} (hs : s.Inv) (h : exec i s = .next t) : t.Inv := by
  obtain ⟨m, r, rfl, hm, -, hr⟩ := exec_next_eq_respond h
  have hmi : m.Inv := by
    rcases hm with ⟨l, rfl⟩ | rfl
    · exact hs.setLstate l
    · exact hs.advance_counter
  exact hmi.respond_shaped hr

theorem step_next {t : State} (hs : s.Inv) (h : step s = .next t) : t.Inv := by
  obtain ⟨-, ⟨-, -, rfl⟩ | ⟨w, din, rest, -, -, -, m, rfl, hm⟩ | ⟨rest, -, rfl⟩ | ⟨c, rest, -, hc, rfl⟩⟩ :=
    step_next_cases h
  · exact hs
  · have hopen : (openBuffers din rest s).Inv := hs.setPort din hs.shaped rest
    have hmi : m.Inv := by
      rcases hm with ⟨i, -, hm⟩ | ⟨e, -, rfl⟩
      · exact hopen.exec_next hm
      · exact hopen.respond_shaped (.of_error _)
    exact hmi.setPort [] hmi.shaped m.inbox
  · exact hs.setPort s.din (by rintro r ⟨⟩) rest
  · exact (of_reset hc).setPort [] hs.shaped rest

end State.Inv

/-! ### The statements -/

/-- Settles O51, by the cases of a step: each is a reset, or writes of the port, the latch and the counter, which keep the
invariant one by one. -/
theorem stepKeepsInvariant : Obligations.StepKeepsInvariant :=
  fun _ _ hs h => hs.step_next h

/-- Settles O12, from what an accepted command leaves. -/
theorem acceptedCommandGivesOneResponse : Obligations.AcceptedCommandGivesOneResponse := by
  intro s t w din rest h hi
  obtain ⟨hr, m, rfl, ⟨i, -, hm⟩ | ⟨e, -, rfl⟩⟩ := step_command_next h hi
  · obtain ⟨r, hresp, -, -⟩ := exec_next_resp hm
    obtain ⟨hcfg, -, -, -, hinbox⟩ := exec_next_frame hm
    exact ⟨hr, ⟨r, hresp⟩, hinbox, rfl, hcfg⟩
  · exact ⟨hr, ⟨_, rfl⟩, rfl, rfl, rfl⟩

/-- Settles O45: a command's response is of the shape of R240; the codes by definition. -/
theorem errorResponsesAreEmpty : Obligations.ErrorResponsesAreEmpty := by
  refine ⟨fun i s t h => ?_, rfl, rfl, rfl, rfl, rfl, rfl, rfl, rfl⟩
  obtain ⟨r, hr, hstatus, hempty, -⟩ := exec_next_resp h
  exact ⟨r, hr, hstatus, hempty⟩

/-- Settles O49, by cases on the command: a report long enough has every field, and a 12-byte image is complete. -/
theorem everyCommandAnswers : Obligations.EveryCommandAnswers := by
  intro i s ha
  obtain ⟨t, ht⟩ := exec_answers i ha
  obtain ⟨r, hr, -, -⟩ := exec_next_resp ht
  exact ⟨t, r, ht, hr⟩

/-- Settles O52, from the four outcomes of a step; only the admissibility of the configuration is used of the invariant. -/
theorem stepStopsOnlyWhereTheSpecSays : Obligations.StepStopsOnlyWhereTheSpecSays := by
  intro s hs
  rcases step_outcome_cases hs.admissible with ⟨t, e⟩ | ⟨e, hr, hi⟩ | ⟨e, hlong⟩ | ⟨e, hbad⟩ <;> rw [e]
  · exact ⟨nofun, nofun, nofun⟩
  · exact ⟨by rintro f ⟨⟩; exact ⟨rfl, hr, hi⟩, nofun, nofun⟩
  · exact ⟨nofun, by rintro q ⟨⟩; exact .inl ⟨rfl, hlong⟩, nofun⟩
  · exact ⟨nofun, by rintro q ⟨⟩; exact .inr ⟨rfl, hbad⟩, nofun⟩

/-- Settles O7: the port opens the buffers, and a legal word runs its command. -/
theorem stepRunsDecodedCommand : Obligations.StepRunsDecodedCommand := by
  constructor
  · intro s t w din rest i ha hr hi hl hd
    have hstep : step s = closeBuffers (exec i { s with din := din, inbox := rest }) :=
      (step_command ha hi hr hl).trans (congrArg closeBuffers (performWord_of_ok hd _))
    exact ⟨hstep, fun h => by rw [hstep, h, closeBuffers_next]⟩
  · intro s nbits w i ha hl hd
    exact (step_command (s := s.withFetchWord nbits w) ha rfl rfl hl).trans
      (congrArg closeBuffers (performWord_of_ok (decode_tableWord hd) _))

/-- Settles O15: RC's span is positive, so its constants are the derived ones and none of the free values of log 3. -/
theorem referenceConfigurationDerives : Obligations.ReferenceConfigurationDerives := by
  have hvalid : axisValid Cfg.rc = true := by decide
  exact ⟨by decide +kernel, hvalid, (axisRegsOf_valid hvalid).trans (by decide)⟩

end Sys2Proof.Machine
end

section
/-! PROOFS of the statements on the state of the block (spec/10_state.md): the derived axis constants and their ranges, what
reset leaves, and which command writes the latch, the counter and the flags. -/

namespace Sys2Proof.Machine

/-! ### The derived axis constants -/

/-- R121 as an inequality between the parameters: a positive span is a numerator of at least 2. -/
theorem axisValid_iff_le (c : Cfg) :
    axisValid c = true ↔ (c.axisMin.val : Int) + 4 * c.axisDz.val + 2 ≤ c.axisMax.val := by
  rw [axisValid_iff, axisSpan, Int.tdiv_eq_ediv, Int.sign_eq_one_of_pos (by norm_num)]
  split <;> omega

/-- R120 in floor divisions: under a valid configuration every numerator is non-negative, so truncation toward zero is floor. -/
theorem axisRegsOf_eq_ediv {c : Cfg} (h : axisValid c = true) :
    axisRegsOf c =
      { center := ((c.axisMax.val : Int) + c.axisMin.val) / 2
        low := ((c.axisMax.val : Int) + c.axisMin.val) / 2 - c.axisDz.val
        high := ((c.axisMax.val : Int) + c.axisMin.val) / 2 + c.axisDz.val
        span := ((c.axisMax.val : Int) - c.axisMin.val - 4 * c.axisDz.val) / 2
        scale := 2 ^ 29 / (((c.axisMax.val : Int) - c.axisMin.val - 4 * c.axisDz.val) / 2) } := by
  have hle := (axisValid_iff_le c).1 h
  rw [axisRegsOf_valid h, deriveAxis, axisSpan, Int.tdiv_eq_ediv_of_nonneg (by omega),
    Int.tdiv_eq_ediv_of_nonneg (by omega), Int.tdiv_eq_ediv_of_nonneg (by omega)]
  norm_num

/-- R27: the ranges of the center, the two edges of the dead band and the span, by `mn + 4 * dz + 2 <= mx <= 255`. -/
theorem axisRegsOf_ranges {c : Cfg} (h : axisValid c = true) :
    (1 ≤ (axisRegsOf c).center ∧ (axisRegsOf c).center ≤ 254) ∧ (1 ≤ (axisRegsOf c).low ∧ (axisRegsOf c).low ≤ 254) ∧
    (1 ≤ (axisRegsOf c).high ∧ (axisRegsOf c).high ≤ 254) ∧ (1 ≤ (axisRegsOf c).span ∧ (axisRegsOf c).span ≤ 127) := by
  have hle := (axisValid_iff_le c).1 h
  have hmax := c.axisMax.isLt
  rw [axisRegsOf_eq_ediv h]
  dsimp only
  omega

theorem axisRegsOf_scale {c : Cfg} (h : axisValid c = true) : (axisRegsOf c).scale = 2 ^ 29 / (axisRegsOf c).span := by
  rw [axisRegsOf_eq_ediv h]

/-- R27: the scale `2^29 / span` of a span in 1..127. -/
theorem scale_range {span : Int} (h1 : 1 ≤ span) (h127 : span ≤ 127) :
    4227330 ≤ 2 ^ 29 / span ∧ 2 ^ 29 / span ≤ 536870912 :=
  ⟨(Int.le_ediv_iff_mul_le (by omega)).2 (by omega), Int.ediv_le_self span (by norm_num)⟩

/-- R123: a scale of at most `2^29` times a distance of less than 256 stays below `2^37` in magnitude. -/
theorem abs_scale_mul_lt {scale d : Int} (h0 : 0 ≤ scale) (hs : scale ≤ 536870912) (hd : |d| ≤ 255) :
    |scale * d| < 2 ^ 37 := by
  rw [abs_mul, abs_of_nonneg h0]
  calc scale * |d| ≤ 536870912 * 255 := mul_le_mul hs hd (abs_nonneg d) (by norm_num)
    _ < 2 ^ 37 := by norm_num

/-- A raw sample is less than 256 away from an edge of the dead band. -/
theorem abs_raw_sub_le (raw : Byte) {edge : Int} (h1 : 1 ≤ edge) (h254 : edge ≤ 254) :
    |(raw.toNat : Int) - edge| ≤ 255 := by
  have := raw.isLt
  rw [abs_le]
  omega

/-! ### DECODE and DECENC -/

section
variable {s : State}

/-- DECODE and DECENC are DECODE_CORE with some output of the decoded state (R157, R183). -/
theorem exec_eq_decodeCore {i : Instr} (hi : i = .decode ∨ i = .decenc) : ∃ f, ∀ s, exec i s = decodeCore f s := by
  rcases hi with rfl | rfl
  · exact ⟨_, exec_decode⟩
  · exact ⟨_, exec_decenc⟩

/-- R249 item 2. -/
theorem decodeReport_configError (hc : s.cfgOk = false) : decodeReport s = some (.error .configError) :=
  if_pos hc

/-- R249 item 3. -/
theorem decodeReport_short (hc : s.cfgOk = true) (hl : s.din.length < s.cfg.reportLen) :
    decodeReport s = some (.error .decodeShort) := by
  simp [decodeReport, hc, hl]

/-- R249 item 4. -/
theorem decodeReport_badTag (hc : s.cfgOk = true) (hl : s.cfg.reportLen ≤ s.din.length)
    (ht : tagMatches s.cfg s.din = false) : decodeReport s = some (.error .decodeBadTag) := by
  simp [decodeReport, hc, Nat.not_lt.2 hl, ht]

/-- R249 item 5. -/
theorem decodeReport_dpad {b : Byte} (hc : s.cfgOk = true) (hl : s.cfg.reportLen ≤ s.din.length)
    (ht : tagMatches s.cfg s.din = true) (hb : reportByte s.cfg s.din s.cfg.offBtn0 = some b)
    (hd : dpadSeed s.cfg (dpadNibble b) = .error .decodeDpad) : decodeReport s = some (.error .decodeDpad) := by
  simp [decodeReport, hc, Nat.not_lt.2 hl, ht, hb, hd]

/-- R152: a nibble of 8 to 15 under REJECT. -/
theorem dpadSeed_reject {c : Cfg} {n : Fin 16} (hn : 8 ≤ n.val) (hp : c.dpadPolicy = .reject) :
    dpadSeed c n = .error .decodeDpad := by
  simp [dpadSeed, Nat.not_le.2 hn, hp]

/-- No error of DECODE_CORE has the status `OK`. -/
theorem decodeReport_error_ne_ok {e : Status} (h : decodeReport s = some (.error e)) : e ≠ .ok := by
  rcases decodeReport_error h with rfl | rfl | rfl | rfl <;> decide

/-- R152: which seeds say that the dpad points nowhere. -/
theorem dpadSeed_none_iff {c : Cfg} {n : Fin 16} {seed : Half} {dn : Bool} (h : dpadSeed c n = .ok (seed, dn)) :
    dn = true ↔ c.dpadPolicy = .none ∧ 8 ≤ n.val := by
  rcases dpadSeed_cases c n with ⟨hn, hd⟩ | ⟨hn, hp, hd⟩ | ⟨-, -, hd⟩ <;> cases h.symm.trans hd
  · simpa using fun _ => hn
  · simpa using ⟨hp, hn⟩

/-- R152: a report decodes with the dpad-none flag exactly when its dpad nibble is in 8..15 under NONE. -/
theorem decodeReport_dpadNone_iff {d : Decoded} (h : decodeReport s = some (.ok d)) :
    d.dpadNone = true ↔ s.cfg.dpadPolicy = .none ∧
      ∃ dp, s.din[s.cfg.base.val + s.cfg.offBtn0.val]? = some dp ∧ 8 ≤ dp.toNat % 16 := by
  obtain ⟨b, seed, dn, -, -, -, hb, hseed, hf⟩ := decodeReport_ok h
  obtain ⟨btn, lt, rt, ax, misc, -, -, -, -, -, rfl⟩ := reportFields_eq.1 hf
  have hb' : s.din[s.cfg.base.val + s.cfg.offBtn0.val]? = some b := hb
  simp [dpadSeed_none_iff hseed, dpadNibble_val, hb']

end

/-! ### Which command writes what -/

section
variable {i : Instr} {s t : State}

/-- What DECODE and DECENC do when they answer, but for the output. -/
theorem exec_decoder_next (hi : i = .decode ∨ i = .decenc) (h : exec i s = .next t) :
    (∃ e, decodeReport s = some (.error e) ∧ t = failDecode e s) ∨
    (∃ d out, decodeReport s = some (.ok d) ∧ t = finish d.seq (flagsByte d.dpadNone) out (latch d.lstate s)) := by
  obtain ⟨f, hf⟩ := exec_eq_decodeCore hi
  rcases decodeCore_next ((hf s).symm.trans h) with he | ⟨d, hd, ht⟩
  · exact .inl he
  · exact .inr ⟨d, _, hd, ht⟩

/-- Who writes what: a command that answers gives one response, over the state itself, over a write of the latch if it is
DECODE, DECENC or LDSTATE, or over an advance of the counter if it is AUDIO; only DECODE and DECENC set a flag. -/
theorem exec_next_writes (h : exec i s = .next t) :
    ∃ (r : Response) (m : State), t = respond r m ∧
      (m = s ∨ ((i = .decode ∨ i = .decenc ∨ i = .ldstate) ∧ ∃ l, m = { s with lstate := l }) ∨
        (i = .audio ∧ m = advanceCounter s)) ∧
      (r.flags = 0x00#8 ∨ i = .decode ∨ i = .decenc) := by
  rcases exec_next_cases h with ⟨e, -, -, -, rfl⟩ | ⟨e, -, hi, -, rfl⟩ | ⟨d, out, -, hi, rfl⟩ | ⟨raw, -, -, rfl⟩ |
    ⟨l, -, -, rfl⟩ | ⟨l, hi, -, -, rfl⟩ | ⟨poll, r, g, b, m0, m1, -, rfl⟩ | ⟨hi, -, rfl⟩
  · exact ⟨_, s, rfl, .inl rfl, .inl rfl⟩
  · exact ⟨_, dropLatch s, rfl, .inr (.inl ⟨hi.imp_right .inl, none, rfl⟩), .inl rfl⟩
  · have hi' : i = .decode ∨ i = .decenc := hi.imp And.left And.left
    exact ⟨_, latch d.lstate s, rfl, .inr (.inl ⟨hi'.imp_right .inl, some d.lstate, rfl⟩), .inr hi'⟩
  · exact ⟨_, s, rfl, .inl rfl, .inl rfl⟩
  · exact ⟨_, s, rfl, .inl rfl, .inl rfl⟩
  · exact ⟨_, latch l s, rfl, .inr (.inl ⟨.inr (.inr hi), some l, rfl⟩), .inl rfl⟩
  · exact ⟨_, s, rfl, .inl rfl, .inl rfl⟩
  · exact ⟨_, advanceCounter s, rfl, .inr (.inr ⟨hi, rfl⟩), .inl rfl⟩

/-- R20, R23: only AUDIO writes the counter. -/
theorem exec_next_audCtr (hi : i ≠ .audio) (h : exec i s = .next t) : t.audCtr = s.audCtr := by
  obtain ⟨r, m, rfl, rfl | ⟨-, l, rfl⟩ | ⟨ha, -⟩, -⟩ := exec_next_writes h
  · rfl
  · rfl
  · exact absurd ha hi

/-- R20, R25: only DECODE, DECENC and LDSTATE write the latch. -/
theorem exec_next_lstate (hi : ¬ (i = .decode ∨ i = .decenc ∨ i = .ldstate)) (h : exec i s = .next t) :
    t.lstate = s.lstate := by
  obtain ⟨r, m, rfl, rfl | ⟨hl, -⟩ | ⟨-, rfl⟩, -⟩ := exec_next_writes h
  · rfl
  · exact absurd hl hi
  · rfl

/-- R29: only DECODE and DECENC set a flag. -/
theorem exec_next_flags {r : Response} (hi : ¬ (i = .decode ∨ i = .decenc)) (h : exec i s = .next t)
    (hr : t.resp = some r) : r.flags = 0x00#8 := by
  obtain ⟨r', m, rfl, -, hflags⟩ := exec_next_writes h
  cases hr
  exact hflags.resolve_right hi

end

/-! ### The flag byte -/

@[simp] theorem flagsByte_getElem_zero (b : Bool) : (flagsByte b)[0] = b := by
  cases b <;> rfl

/-- R29: bits 7:1 of a response of the right shape are 0. -/
theorem Response.Shaped.flags_getLsbD {r : Response} (hr : r.Shaped) {j : Nat} (hj : 1 ≤ j) :
    r.flags.getLsbD j = false := by
  obtain ⟨-, h0 | h1⟩ := hr
  · rw [h0, BitVec.getLsbD_zero]
  · rw [h1, BitVec.getLsbD_one]
    simp
    omega

/-! ### The statements -/

/-- Settles O22: the center, the edges and the span are bounded by the parameters, the scale by the span, and the product by
the scale and the edges. -/
theorem axisConstantsStayInRange : Obligations.AxisConstantsStayInRange := by
  intro c hvalid
  obtain ⟨hcenter, hlow, hhigh, hspan⟩ := axisRegsOf_ranges hvalid
  have hscale : 4227330 ≤ (axisRegsOf c).scale ∧ (axisRegsOf c).scale ≤ 536870912 := by
    rw [axisRegsOf_scale hvalid]
    exact scale_range hspan.1 hspan.2
  have hscale0 : 0 ≤ (axisRegsOf c).scale := le_trans (by norm_num) hscale.1
  exact ⟨hcenter, hlow, hhigh, hspan, hscale, fun raw =>
    ⟨abs_scale_mul_lt hscale0 hscale.2 (abs_raw_sub_le raw hlow.1 hlow.2),
      abs_scale_mul_lt hscale0 hscale.2 (abs_raw_sub_le raw hhigh.1 hhigh.2)⟩⟩

/-- Settles O24: each error is DECODE_CORE's at its place in R157, and DECODE_CORE fails with it. -/
theorem decodeErrorsInPriorityOrder : Obligations.DecodeErrorsInPriorityOrder := by
  intro i s hi
  obtain ⟨f, hf⟩ := exec_eq_decodeCore hi
  rw [hf s]
  refine ⟨fun hc => ?_, fun hc hl => ?_, fun hc hl hcheck htag => ?_, fun dp hc hl htag hdp hn hp => ?_⟩
  · exact decodeCore_of_error f (decodeReport_configError hc)
  · exact decodeCore_of_error f (decodeReport_short hc hl)
  · have ht : tagMatches s.cfg s.din = false := by simp [← Bool.not_eq_true, tagMatches_iff, hcheck, htag]
    exact decodeCore_of_error f (decodeReport_badTag hc hl ht)
  · have hseed := dpadSeed_reject (n := dpadNibble dp) (by rwa [dpadNibble_val]) hp
    exact decodeCore_of_error f (decodeReport_dpad hc hl ((tagMatches_iff _ _).2 htag) hdp hseed)

/-- Settles O39: only AUDIO writes the counter, and AUDIO either raises BAD_LENGTH or advances it. -/
theorem onlySuccessfulAudioAdvancesCounter : Obligations.OnlySuccessfulAudioAdvancesCounter := by
  intro i s t h
  by_cases hi : i = .audio
  · subst hi
    rcases execAudio_next h with ⟨-, rfl⟩ | ⟨-, rfl⟩
    · exact ⟨_, rfl, by simp, fun _ => rfl⟩
    · exact ⟨_, rfl, fun _ => ⟨rfl, rfl⟩, by simp⟩
  · obtain ⟨r, hr, -, -⟩ := exec_next_resp h
    exact ⟨r, hr, fun ha => absurd ha.1 hi, fun _ => exec_next_audCtr hi h⟩

/-- Settles O42, from what no command writes and who writes the latch and the counter. -/
theorem commandFrame : Obligations.CommandFrame := by
  intro i s t h
  obtain ⟨hcfg, hok, hax, hdin, hinbox⟩ := exec_next_frame h
  exact ⟨hcfg, hok, hax, hdin, hinbox, fun h1 h2 h3 => exec_next_lstate (by simp [h1, h2, h3]) h,
    fun ha => exec_next_audCtr ha h⟩

/-- Settles O43, by cases on the command: DECODE and DECENC fail, with the latch dropped, or latch; LDSTATE raises or latches;
no other command writes the latch. -/
theorem latchValidity : Obligations.LatchValidity := by
  intro i s t r h hr
  by_cases hdec : i = .decode ∨ i = .decenc
  · have hne : i ≠ .ldstate := by rcases hdec with rfl | rfl <;> nofun
    have hwrites : i = .decode ∨ i = .decenc ∨ i = .ldstate := hdec.imp_right .inl
    rcases exec_decoder_next hdec h with ⟨e, he, rfl⟩ | ⟨d, out, -, rfl⟩ <;> cases hr
    · exact ⟨fun _ hok => absurd hok (decodeReport_error_ne_ok he), fun _ _ => rfl, absurd hwrites,
        fun hld => absurd hld hne⟩
    · exact ⟨fun _ _ => rfl, fun _ herr => absurd rfl herr, absurd hwrites, fun hld => absurd hld hne⟩
  · by_cases hld : i = .ldstate
    · subst hld
      rcases execLdstate_next h with ⟨-, rfl⟩ | ⟨l, -, -, rfl⟩ <;> cases hr
      · exact ⟨nofun, fun hd => absurd hd hdec, fun _ => rfl, fun _ _ => rfl⟩
      · exact ⟨fun _ _ => rfl, fun hd => absurd hd hdec, by simp, fun _ herr => absurd rfl herr⟩
    · have hkeeps : ¬ (i = .decode ∨ i = .decenc ∨ i = .ldstate) := by simpa [not_or.1 hdec] using hld
      exact ⟨fun hw => absurd hw hkeeps, fun hd => absurd hd hdec, fun _ => exec_next_lstate hkeeps h,
        fun h => absurd h hld⟩

/-- Settles O46: bits 7:1 by the shape of every response; bit 0 by whether the command is a decoder and what it decodes. -/
theorem flagsOnlySayDpadNone : Obligations.FlagsOnlySayDpadNone := by
  intro i s t r h hr
  obtain ⟨r', hr', -, hshaped⟩ := exec_next_resp h
  obtain rfl : r' = r := Option.some.inj (hr'.symm.trans hr)
  refine ⟨fun j hj => hshaped.flags_getLsbD hj, ?_⟩
  by_cases hi : i = .decode ∨ i = .decenc
  · rcases exec_decoder_next hi h with ⟨e, he, rfl⟩ | ⟨d, out, hd, rfl⟩ <;> cases hr
    · simp [decodeReport_error_ne_ok he]
    · simp [hi, decodeReport_dpadNone_iff hd]
  · simp [hi, exec_next_flags hi h hr]

/-- Settles O14: the registers by definition, the axis constants from R120 in floor divisions. -/
theorem resetLeavesTheSpecValues : Obligations.ResetLeavesTheSpecValues := by
  refine fun c => ⟨rfl, rfl, rfl, axisValid_iff c, fun hvalid => ?_⟩
  rw [resetWith_ax, axisRegsOf_eq_ediv hvalid]
  exact ⟨rfl, rfl, rfl, rfl, rfl⟩

/-- Settles O50: reset under an admissible configuration establishes the invariant, and RC is admissible. -/
theorem invariantHoldsAtReset : Obligations.InvariantHoldsAtReset := by
  obtain ⟨hrc, -, -⟩ := referenceConfigurationDerives
  exact ⟨fun _ hc => State.Inv.of_reset hc, State.Inv.of_reset hrc⟩

end Sys2Proof.Machine
end

section
/-! PROOFS of the statements on the buffers and the command port (spec/20_memory.md): a command word as bytes, what a command
does not read, and runs of AUDIO commands. -/

namespace Sys2Proof.Machine

/-! ### A command word as bytes -/

/-- R53: byte `k` of a command word holds `CMD[8k+7:8k]`. -/
theorem wordBytes_getElem? (w : Word64) {k : Nat} (hk : k < 8) :
    (wordBytes w)[k]? = some (w.extractLsb' (8 * k) 8) := by
  match k, hk with
  | 0, _ | 1, _ | 2, _ | 3, _ | 4, _ | 5, _ | 6, _ | 7, _ => rfl

/-- R53, R78: the byte decoder decodes the word that the first eight bytes carry, and leaves the rest. -/
theorem decodeBytes_wordBytes_append (w : Word64) (rest : List Byte) :
    decodeBytes (wordBytes w ++ rest) = (decode w).map (·, rest) := by
  simp only [wordBytes, List.cons_append, List.nil_append, decodeBytes, wordOfBytes_wordBytes]
  cases decode w <;> rfl

/-! ### What a command does not read -/

section
variable {s t : State}

/-- No command reads the held response, and each replaces it (log 19). -/
theorem exec_setResp (i : Instr) (s : State) (o : Option Response) : exec i { s with resp := o } = exec i s := by
  cases i <;> rfl

/-- R157, R183: DECODE and DECENC do not read the latch or the held response, and write both. -/
theorem decodeCore_setLstate_setResp (f : LogicalState → List Byte) (s : State) (l : Option LogicalState)
    (o : Option Response) : decodeCore f { s with lstate := l, resp := o } = decodeCore f s := rfl

/-- R160: LDSTATE of a 12-byte image latches its fields. -/
theorem execLdstate_of_image {l : LogicalState} (hn : s.din.length = 12) (hl : imageState s.din = some l) :
    execLdstate s = .next (finish 0x0000#16 0x00#8 [] (latch l s)) := by
  rw [execLdstate, if_pos hn, hl]

/-- R55 (4) for DECODE and DECENC. -/
theorem decodeCore_idempotent {f : LogicalState → List Byte} (h : decodeCore f s = .next t) :
    decodeCore f t = .next t := by
  rcases decodeCore_next h with ⟨e, -, rfl⟩ | ⟨d, -, rfl⟩
  · exact (decodeCore_setLstate_setResp f s _ _).trans h
  · exact (decodeCore_setLstate_setResp f s _ _).trans h

/-- R55 (4) for LDSTATE, which latches the same image again, or raises and keeps the latch again. -/
theorem execLdstate_idempotent (h : execLdstate s = .next t) : execLdstate t = .next t := by
  rcases execLdstate_next h with ⟨-, rfl⟩ | ⟨l, hn, hl, rfl⟩
  · exact (exec_setResp .ldstate s _).trans h
  · exact execLdstate_of_image (s := finish _ _ _ (latch l s)) hn hl

/-- R182: ENCODE while `LSTATE_V = 0`. -/
theorem execEncode_of_none (hl : s.lstate = none) : execEncode s = .next (raise .noState s) := by
  rw [execEncode, hl]

/-- R182: ENCODE of a latched state. -/
theorem execEncode_of_some {l : LogicalState} (hl : s.lstate = some l) :
    execEncode s = .next (finish 0x0000#16 0x00#8 (wire l) s) := by
  rw [execEncode, hl]

end

/-! ### Runs of AUDIO commands -/

/-- The AUDIO command `CMD = 0x11` (R75). -/
theorem decode_audioWord : decode 0x0000000000000011#64 = .ok .audio := by decide

/-- The host side's actions of a run of AUDIO commands, each response taken (R57, R277). -/
def audioActions (payloads : List (List Byte)) : List HostAction :=
  payloads.flatMap fun p => [.command 0x0000000000000011#64 p, .takeResponse]

theorem audioActions_append_cons (ps qs : List (List Byte)) (p : List Byte) (rest : List HostAction) :
    audioActions (ps ++ p :: qs) ++ rest =
      audioActions ps ++ .command 0x0000000000000011#64 p :: .takeResponse :: (audioActions qs ++ rest) := by
  simp [audioActions]

/-- The response to an AUDIO whose payload is `p` (R218). -/
def audioResponse (p : List Byte) (s : State) : Response :=
  ⟨.ok, s.audCtr, 0x00#8, frame s.cfg.crcPrefix (audioBody s.cfg s.audCtr p)⟩

/-- The state `s` once the host side has run `n` AUDIO commands and has `rest` left to do (R219). -/
def afterAudio (n : Nat) (rest : List HostAction) (s : State) : State :=
  { s with audCtr := s.audCtr + BitVec.ofNat 16 n * s.cfg.audStride, inbox := rest }

section
variable {s : State} {p : List Byte} {rest : List HostAction}

/-- R7 (7): an audio payload fits in `DIN`. -/
theorem audN_le_dinMax {c : Cfg} (hc : c.Admissible) : c.audN.val ≤ c.dinMax.val := by
  obtain ⟨-, -, -, -, -, -, hdin, -⟩ := hc
  exact (le_max_left _ _).trans ((le_max_left _ _).trans hdin)

theorem afterAudio_zero : afterAudio 0 s.inbox s = s := by
  simp [afterAudio]

theorem afterAudio_one : afterAudio 1 rest s = { advanceCounter s with inbox := rest } := by
  rw [afterAudio, BitVec.one_mul]
  rfl

theorem afterAudio_afterAudio (m n : Nat) (mid : List HostAction) :
    afterAudio n rest (afterAudio m mid s) = afterAudio (m + n) rest s := by
  simp [afterAudio, BitVec.ofNat_add, add_mul, add_assoc]

/-- R218: a presented AUDIO with a payload of the right length answers with the counter's frame and advances the counter. -/
theorem step_audio (ha : s.cfg.Admissible) (hr : s.resp = none) (hd : s.din = []) (hp : p.length = s.cfg.audN.val)
    (hi : s.inbox = .command 0x0000000000000011#64 p :: rest) :
    step s = .next (respond (audioResponse p s) (afterAudio 1 rest s)) := by
  have hexec : exec .audio (openBuffers p rest s) =
      .next (respond (audioResponse p s) (advanceCounter (openBuffers p rest s))) := if_pos hp
  rw [step_command ha hi hr (hp.trans_le (audN_le_dinMax ha)), performWord_of_ok decode_audioWord, hexec, closeBuffers_next,
    afterAudio_one, ← hd]
  rfl

/-- One AUDIO and the taking of its response: two steps, after which the counter has advanced once. -/
theorem run_audio_take (ha : s.cfg.Admissible) (hr : s.resp = none) (hd : s.din = []) (hp : p.length = s.cfg.audN.val)
    (hi : s.inbox = .command 0x0000000000000011#64 p :: .takeResponse :: rest) (m : Nat) :
    core.run (m + 2) s = core.run m (afterAudio 1 rest s) := by
  have htake : step (respond (audioResponse p s) (afterAudio 1 (.takeResponse :: rest) s)) =
      .next (afterAudio 1 rest s) := by
    rw [step_take (by exact ha) rfl, ← hr]
    rfl
  exact (run_next (step_audio ha hr hd hp hi) (m + 1)).trans (run_next htake m)

/-- R219: a run of AUDIO commands takes two steps for each, and the run goes on from the advanced counter. -/
theorem run_audioActions (ps : List (List Byte)) (ha : s.cfg.Admissible) (hr : s.resp = none) (hd : s.din = [])
    (hps : ∀ p ∈ ps, p.length = s.cfg.audN.val) (hi : s.inbox = audioActions ps ++ rest) (m : Nat) :
    core.run (m + 2 * ps.length) s = core.run m (afterAudio ps.length rest s) := by
  induction ps generalizing s with
  | nil =>
    obtain rfl : s.inbox = rest := hi
    exact congrArg (core.run m) afterAudio_zero.symm
  | cons p ps ih =>
    obtain ⟨hp, hps⟩ := List.forall_mem_cons.1 hps
    calc core.run (m + 2 * ps.length + 2) s
        = core.run (m + 2 * ps.length) (afterAudio 1 (audioActions ps ++ rest) s) := run_audio_take ha hr hd hp hi _
      _ = core.run m (afterAudio ps.length rest (afterAudio 1 (audioActions ps ++ rest) s)) := ih ha hr hd hps rfl
      _ = core.run m (afterAudio (ps.length + 1) rest s) := by rw [afterAudio_afterAudio, Nat.add_comm]

/-- R219: the `k`-th AUDIO of a run reports the counter's start value plus `k` strides. -/
theorem run_audioActions_response {ps : List (List Byte)} (ha : s.cfg.Admissible) (hr : s.resp = none) (hd : s.din = [])
    (hps : ∀ p ∈ ps, p.length = s.cfg.audN.val) (hi : s.inbox = audioActions ps ++ rest) {k : Nat} (hk : k < ps.length) :
    ∃ (t : State) (r : Response), core.run (2 * k + 1) s = .next t ∧ t.resp = some r ∧ r.status = .ok ∧
      r.value = s.audCtr + BitVec.ofNat 16 k * s.cfg.audStride := by
  have hsplit : ps = ps.take k ++ ps[k] :: ps.drop (k + 1) := by simp
  rw [hsplit, audioActions_append_cons] at hi
  have hlen : (ps.take k).length = k := List.length_take_of_le hk.le
  have hfirst := run_audioActions (ps.take k) ha hr hd (fun p hp => hps p (List.mem_of_mem_take hp)) hi 1
  rw [hlen, Nat.add_comm] at hfirst
  exact ⟨_, _, hfirst.trans (run_next (s := afterAudio k _ s)
    (step_audio ha hr hd (hps _ (List.getElem_mem hk)) rfl) 0), rfl, rfl, rfl⟩

end

/-- R276: two numbers of advances that end on the same counter are congruent modulo the counter's period. -/
theorem modEq_period_of_counter_eq {ctr stride : Half} {j k : Nat}
    (h : ctr + BitVec.ofNat 16 j * stride = ctr + BitVec.ofNat 16 k * stride) :
    j ≡ k [MOD 2 ^ 16 / Nat.gcd stride.toNat (2 ^ 16)] := by
  have hmul : j * stride.toNat ≡ k * stride.toNat [MOD 2 ^ 16] := by
    have := congrArg BitVec.toNat (add_left_cancel h)
    simpa [Nat.ModEq, Nat.mul_mod] using this
  rw [Nat.gcd_comm]
  exact hmul.cancel_right_div_gcd (by norm_num)

/-! ### The statements -/

/-- Settles O5, from the bytes of a word and the byte decoder on them. -/
theorem commandWordCarriedLittleEndian : Obligations.CommandWordCarriedLittleEndian := by
  intro w rest
  rw [decodeBytes_wordBytes_append]
  exact ⟨rfl, fun k hk => wordBytes_getElem? w hk, fun i hi => by rw [hi]; rfl, fun e he => by rw [he]; rfl⟩

/-- Settles O41: the run ends after two steps for each payload; its first `k` payloads lead to the `k`-th AUDIO. -/
theorem audioSequenceAdvancesOncePerFrame : Obligations.AudioSequenceAdvancesOncePerFrame := by
  intro s payloads rest ha hr hd hps hi
  refine ⟨?_, fun k hk => run_audioActions_response ha hr hd hps hi hk⟩
  rw [← Nat.zero_add (2 * payloads.length)]
  exact run_audioActions payloads ha hr hd hps hi 0

/-- Settles O44: DECODE, DECENC and LDSTATE do not read the latch they write; every other command but AUDIO writes the held
response alone, which no command reads. -/
theorem commandsButAudioAreIdempotent : Obligations.CommandsButAudioAreIdempotent := by
  intro i s t haudio h
  by_cases hlatch : i = .decode ∨ i = .decenc ∨ i = .ldstate
  · rcases hlatch with rfl | rfl | rfl
    · exact decodeCore_idempotent (f := fun _ => []) h
    · exact decodeCore_idempotent (f := wire) h
    · exact execLdstate_idempotent h
  · obtain ⟨r, m, rfl, rfl | ⟨hi, -⟩ | ⟨hi, -⟩, -⟩ := exec_next_writes h
    · exact (exec_setResp i m _).trans h
    · exact absurd hi hlatch
    · exact absurd hi haudio

/-- Settles O47, by cases on the three commands: each answers from the registers alone. -/
theorem dinIgnoredByCommandsThatDoNotReadIt : Obligations.DinIgnoredByCommandsThatDoNotReadIt := by
  intro i s t din' hdecode hdecenc hldstate haudio h
  cases i with
  | axcor raw =>
    rcases execAxcor_next h with ⟨hc, rfl⟩ | ⟨hc, rfl⟩
    · exact if_pos hc
    · exact if_neg (by simp [hc])
  | encode =>
    rcases execEncode_next h with ⟨hl, rfl⟩ | ⟨l, hl, rfl⟩
    · exact execEncode_of_none (s := { s with din := din' }) hl
    · exact execEncode_of_some (s := { s with din := din' }) hl
  | ctrl poll r g b m0 m1 => rw [execCtrl_next h]; rfl
  | decode => exact absurd rfl hdecode
  | decenc => exact absurd rfl hdecenc
  | ldstate => exact absurd rfl hldstate
  | audio => exact absurd rfl haudio

/-- Settles O56: the two frames report start values plus `j` and `k` strides, and equal ones would make the period divide
`k - j`. -/
theorem audioFramesWithinPeriodAreDistinct : Obligations.AudioFramesWithinPeriodAreDistinct := by
  intro s payloads rest ha hr hd hps hi j k hjk hk hperiod
  obtain ⟨t, r, ht, htr, hrok, hrv⟩ := run_audioActions_response ha hr hd hps hi (hjk.trans hk)
  obtain ⟨u, q, hu, huq, hqok, hqv⟩ := run_audioActions_response ha hr hd hps hi hk
  refine ⟨t, u, r, q, ht, htr, hrok, hu, huq, hqok, fun heq => ?_⟩
  rw [hrv, hqv] at heq
  have hdvd := (Nat.modEq_iff_dvd' hjk.le).1 (modEq_period_of_counter_eq heq)
  exact absurd (Nat.le_of_dvd (Nat.sub_pos_of_lt hjk) hdvd) (Nat.not_le.2 hperiod)

/-- Settles O9: the port refuses an overlong `DIN` before it reads the word. -/
theorem overlongDinHasNoStep : Obligations.OverlongDinHasNoStep := by
  intro s w din rest ha hr hi hlong
  rw [step_eq_serveCommand ha hi, serveCommand, if_neg (by simp [hr]), if_pos hlong]

/-- Settles O55, from reading what was packed and packing what was read. -/
theorem packingIsLittleEndian : Obligations.PackingIsLittleEndian :=
  ⟨fun v a b => rd16le_append_u16le a b v, fun lo hi => ⟨rfl, u16le_of_bytes lo hi⟩,
    fun v a b => rd32le_append_u32le a b v⟩

end Sys2Proof.Machine
end

section
/-! PROOFS of the statements on the encoding of commands (spec/30_encoding.md): the decoder as the match of a row with the
operands read from their fields, the fields of an encoding, and the assembler's sums. -/

namespace Sys2Proof

/-! ### The decoder by rows of the opcode table -/

/-- The command of `i`'s row whose operands are read from their fields in `w` (R74). -/
def Instr.withOperands (w : Word64) : Instr → Instr
  | .axcor _ => .axcor (rawField w)
  | .ctrl _ _ _ _ _ _ => .ctrl (pollField w) (rField w) (gField w) (bField w) (m0Field w) (m1Field w)
  | .decode => .decode
  | .encode => .encode
  | .decenc => .decenc
  | .ldstate => .ldstate
  | .audio => .audio

@[simp] theorem Instr.row_withOperands (w : Word64) (i : Instr) : (i.withOperands w).row = i.row := by
  cases i <;> rfl

/-- R75: the rows of the opcode table are the rows of the commands. -/
theorem mem_opcodeTable_iff {row : OpRow} : row ∈ opcodeTable ↔ ∃ i : Instr, row = i.row := by
  constructor
  · simp only [opcodeTable, List.mem_cons, List.not_mem_nil, or_false]
    rintro (h | h | h | h | h | h | h) <;> exact ⟨_, h⟩
  · rintro ⟨i, rfl⟩
    cases i <;> simp [opcodeTable, Instr.row]

/-- R71: a row of format N, whose mask has every bit, matches its pattern alone. -/
theorem eq_of_full_mask {w p : Word64} (h : w &&& 0xFFFFFFFFFFFFFFFF#64 = p) : w = p :=
  BitVec.and_allOnes.symm.trans h

/-- R75, R79: a word that matches a command's row decodes to that command, with the operands of the word. -/
theorem decode_of_row_match {w : Word64} {i : Instr} (h : w &&& i.row.mask = i.row.pattern) :
    decode w = .ok (i.withOperands w) := by
  cases i with
  | axcor raw =>
    obtain ⟨hop, hres⟩ := (row_match_A w).1 h
    simp [decode, decodeA, hop, hres, Instr.withOperands]
  | ctrl poll r g b m0 m1 =>
    obtain ⟨hop, hhi, hlo⟩ := (row_match_C w).1 h
    simp [decode, decodeC, hop, hhi, hlo, Instr.withOperands]
  | decode => rw [eq_of_full_mask h]; rfl
  | encode => rw [eq_of_full_mask h]; rfl
  | decenc => rw [eq_of_full_mask h]; rfl
  | ldstate => rw [eq_of_full_mask h]; rfl
  | audio => rw [eq_of_full_mask h]; rfl

/-- R75, R79: a legal word matches the row of the command it decodes to, and gives it its operands. -/
theorem row_match_of_decode {w : Word64} {i : Instr} (h : decode w = .ok i) :
    w &&& i.row.mask = i.row.pattern ∧ i.withOperands w = i := by
  rcases decode_ok_cases h with ⟨hop, hres, rfl⟩ | ⟨hop, hres, rfl⟩ | ⟨hop, hres, rfl⟩ | ⟨hop, hres, rfl⟩ |
    ⟨hop, hres, rfl⟩ | ⟨hop, hres, rfl⟩ | ⟨hop, hres, rfl⟩
  · exact ⟨(row_match_A w).2 ⟨hop, hres⟩, rfl⟩
  · exact ⟨(row_match_N w 0x02#8).2 ⟨hop, hres⟩, rfl⟩
  · exact ⟨(row_match_N w 0x03#8).2 ⟨hop, hres⟩, rfl⟩
  · exact ⟨(row_match_N w 0x04#8).2 ⟨hop, hres⟩, rfl⟩
  · exact ⟨(row_match_N w 0x05#8).2 ⟨hop, hres⟩, rfl⟩
  · exact ⟨(row_match_C w).2 ⟨hop, hres⟩, rfl⟩
  · exact ⟨(row_match_N w 0x11#8).2 ⟨hop, hres⟩, rfl⟩

/-! ### Encodings, their rows and their fields -/

/-- R75: the word of a well-formed command matches the command's own row. -/
theorem encode_matches_row {i : Instr} (hi : WellFormed i) : encode i &&& i.row.mask = i.row.pattern := by
  cases i with
  | axcor raw => exact Laws.EncodesItsRow.axcor raw hi
  | decode => exact Laws.EncodesItsRow.decode hi
  | encode => exact Laws.EncodesItsRow.encode hi
  | decenc => exact Laws.EncodesItsRow.decenc hi
  | ldstate => exact Laws.EncodesItsRow.ldstate hi
  | ctrl poll r g b m0 m1 => exact Laws.EncodesItsRow.ctrl poll r g b m0 m1 hi
  | audio => exact Laws.EncodesItsRow.audio hi

theorem wellFormed_ctrl_iff {poll r g b m0 m1 : Byte} : WellFormed (.ctrl poll r g b m0 m1) ↔ poll.toNat < 64 :=
  decide_eq_true_iff

/-- R73: what is read from a word is well-formed, as `POLL` is read from six bits. -/
theorem wellFormed_withOperands (w : Word64) (i : Instr) : WellFormed (i.withOperands w) := by
  cases i with
  | ctrl poll r g b m0 m1 => exact wellFormed_ctrl_iff.2 (by rw [toNat_pollField]; omega)
  | _ => rfl

/-- R73: the byte of `POLL` is its six bits when the reserved bits above them are 0. -/
theorem pollField_eq_rawField {w : Word64} (h : w.extractLsb' 14 2 = 0) : pollField w = rawField w := by
  apply BitVec.eq_of_toNat_eq
  rw [field_eq_zero] at h
  rw [toNat_pollField, rawField, toNat_field]
  omega

/-- R71: a word whose reserved bits of format N are 0 is put together from `OP`. -/
theorem encodeN_opField {w : Word64} (h : w.extractLsb' 8 56 = 0) : encodeN (opField w) = w := by
  apply BitVec.eq_of_toNat_eq
  rw [field_eq_zero] at h
  rw [toNat_encodeN, toNat_opField]
  omega

/-- R72: a word whose reserved bits of format A are 0 is put together from its fields. -/
theorem encodeA_fields {w : Word64} (h : w.extractLsb' 16 48 = 0) : encodeA (opField w) (rawField w) = w := by
  apply BitVec.eq_of_toNat_eq
  rw [field_eq_zero] at h
  rw [toNat_encodeA, toNat_opField, rawField, toNat_field]
  omega

/-- R73: a word whose reserved bits of format C are 0 is put together from its fields. -/
theorem encodeC_fields {w : Word64} (hhi : w.extractLsb' 56 8 = 0) (hlo : w.extractLsb' 14 2 = 0) :
    encodeC (opField w) (pollField w) (rField w) (gField w) (bField w) (m0Field w) (m1Field w) = w := by
  have hbytes := wordOfBytes_wordBytes w
  rw [hhi] at hbytes
  rw [pollField_eq_rawField hlo]
  exact hbytes

/-- R72: the field of format A holds its operand. -/
theorem rawField_encodeA (op raw : Byte) : rawField (encodeA op raw) = raw := by
  apply BitVec.eq_of_toNat_eq
  rw [rawField, toNat_field, toNat_encodeA]
  omega

/-- R53: the bytes of a word that eight bytes form are those eight bytes. -/
theorem wordBytes_wordOfBytes (b0 b1 b2 b3 b4 b5 b6 b7 : Byte) :
    wordBytes (wordOfBytes b0 b1 b2 b3 b4 b5 b6 b7) = [b0, b1, b2, b3, b4, b5, b6, b7] := by
  simp only [wordBytes, List.cons.injEq, and_true]
  refine ⟨?_, ?_, ?_, ?_, ?_, ?_, ?_, ?_⟩ <;> apply BitVec.eq_of_toNat_eq <;> rw [toNat_field, toNat_wordOfBytes] <;> omega

/-- R73: the fields of format C hold its operands. -/
theorem fields_encodeC (op r g b m0 m1 : Byte) {poll : Byte} (hpoll : poll.toNat < 64) :
    pollField (encodeC op poll r g b m0 m1) = poll ∧ rField (encodeC op poll r g b m0 m1) = r ∧
      gField (encodeC op poll r g b m0 m1) = g ∧ bField (encodeC op poll r g b m0 m1) = b ∧
      m0Field (encodeC op poll r g b m0 m1) = m0 ∧ m1Field (encodeC op poll r g b m0 m1) = m1 := by
  have hp : pollField (encodeC op poll r g b m0 m1) = poll := by
    apply BitVec.eq_of_toNat_eq
    rw [toNat_pollField, toNat_encodeC]
    omega
  have hbytes := wordBytes_wordOfBytes op poll r g b m0 m1 0#8
  simp only [wordBytes, List.cons.injEq] at hbytes
  obtain ⟨-, -, hr, hg, hb, hm0, hm1, -⟩ := hbytes
  exact ⟨hp, hr, hg, hb, hm0, hm1⟩

/-- R71 to R74: the fields of a well-formed command's word hold its operands. -/
theorem withOperands_encode {i : Instr} (hi : WellFormed i) : i.withOperands (encode i) = i := by
  cases i with
  | axcor raw => exact congrArg Instr.axcor (rawField_encodeA 0x01#8 raw)
  | ctrl poll r g b m0 m1 =>
    obtain ⟨hp, hr, hg, hb, hm0, hm1⟩ := fields_encodeC 0x10#8 r g b m0 m1 (wellFormed_ctrl_iff.1 hi)
    simp [Instr.withOperands, encode, hp, hr, hg, hb, hm0, hm1]
  | _ => rfl

/-- R71 to R73, R77: a legal word is the word of the command it decodes to. -/
theorem encode_of_decode {w : Word64} {i : Instr} (h : decode w = .ok i) : encode i = w := by
  rcases decode_ok_cases h with ⟨hop, hres, rfl⟩ | ⟨hop, hres, rfl⟩ | ⟨hop, hres, rfl⟩ | ⟨hop, hres, rfl⟩ |
    ⟨hop, hres, rfl⟩ | ⟨hop, ⟨hhi, hlo⟩, rfl⟩ | ⟨hop, hres, rfl⟩
  · rw [encode, ← hop, encodeA_fields hres]
  · rw [encode, ← hop, encodeN_opField hres]
  · rw [encode, ← hop, encodeN_opField hres]
  · rw [encode, ← hop, encodeN_opField hres]
  · rw [encode, ← hop, encodeN_opField hres]
  · rw [encode, ← hop, encodeC_fields hhi hlo]
  · rw [encode, ← hop, encodeN_opField hres]

end Sys2Proof

namespace Sys2Proof.Machine

/-! ### The assembler -/

/-- R80: the assembler's sum for axcor is the word of format A with the operand in its field. -/
theorem word_axcor {raw : Nat} (ha : (Asm.axcor raw).inRange = true) :
    (Asm.axcor raw).word = some (encodeA 0x01#8 (BitVec.ofNat 8 raw)) := by
  have hraw : raw < 256 := of_decide_eq_true ha
  have hsum : (Asm.axcor raw).cmdNumber = (encodeA 0x01#8 (BitVec.ofNat 8 raw)).toNat := by
    simp only [Asm.cmdNumber, Asm.expand, Nat.shiftLeft_eq]
    rw [toNat_encodeA, BitVec.toNat_ofNat, BitVec.toNat_ofNat]
    omega
  rw [Asm.word, if_pos ha, hsum, BitVec.ofNat_toNat, BitVec.setWidth_eq]

theorem inRange_ctrl_iff {poll r g b m0 m1 : Nat} : (Asm.ctrl poll r g b m0 m1).inRange = true ↔
    poll < 64 ∧ r < 256 ∧ g < 256 ∧ b < 256 ∧ m0 < 256 ∧ m1 < 256 :=
  decide_eq_true_iff

/-- R81: `hstop` is accepted as the ctrl it expands to is. -/
theorem inRange_hstop (poll r g b : Nat) : (Asm.hstop poll r g b).inRange = (Asm.ctrl poll r g b 0 0).inRange := by
  simp [Asm.inRange]

/-- R81: the word of `hstop` is that of the ctrl it expands to. -/
theorem word_hstop (poll r g b : Nat) : (Asm.hstop poll r g b).word = (Asm.ctrl poll r g b 0 0).word := by
  rw [Asm.word, Asm.word, inRange_hstop]
  rfl

/-- R81: `hstop` names the command of the ctrl it expands to. -/
theorem instr_hstop (poll r g b : Nat) : (Asm.hstop poll r g b).instr = (Asm.ctrl poll r g b 0 0).instr := by
  rw [Asm.instr, Asm.instr, inRange_hstop]
  rfl

/-- R80: a ctrl with operands in range names a well-formed command and is assembled to that command's word. -/
theorem ctrl_assembles {poll r g b m0 m1 : Nat} (ha : (Asm.ctrl poll r g b m0 m1).inRange = true) :
    ∃ i, (Asm.ctrl poll r g b m0 m1).instr = some i ∧ WellFormed i ∧
      (Asm.ctrl poll r g b m0 m1).word = some (encode i) := by
  obtain ⟨hpoll, -⟩ := inRange_ctrl_iff.1 ha
  have hwf : (BitVec.ofNat 8 poll).toNat < 64 := by rw [BitVec.toNat_ofNat]; omega
  exact ⟨_, if_pos ha, wellFormed_ctrl_iff.2 hwf, word_ctrl poll r g b m0 m1 ha⟩

/-! ### The statements -/

/-- Settles O2: the encoding matches the command's row, so it decodes to that command with the operands in its fields, which
are the command's own. -/
theorem decodeOfEncode : Obligations.DecodeOfEncode := by
  intro i hi
  rw [decode_of_row_match (encode_matches_row hi), withOperands_encode hi]

/-- Settles O3: a legal word is put together from its fields, and its `POLL` is read from six bits. -/
theorem encodeOfDecode : Obligations.EncodeOfDecode := by
  intro w i h
  obtain ⟨-, hi⟩ := row_match_of_decode h
  exact ⟨encode_of_decode h, hi ▸ wellFormed_withOperands w i⟩

/-- Settles O4: the table's rows are the commands' rows, and a word that matches one decodes to a command of that row. -/
theorem legalExactlyWhenOneTableRowMatches : Obligations.LegalExactlyWhenOneTableRowMatches := by
  refine fun w => ⟨⟨fun ⟨i, h⟩ => ?_, fun ⟨row, hrow, hmatch⟩ => ?_⟩, fun i h => ?_⟩
  · obtain ⟨hmatch, -⟩ := row_match_of_decode h
    exact ⟨i.row, mem_opcodeTable_iff.2 ⟨i, rfl⟩, hmatch⟩
  · obtain ⟨i, rfl⟩ := mem_opcodeTable_iff.1 hrow
    exact ⟨_, decode_of_row_match hmatch⟩
  · obtain ⟨hmatch, -⟩ := row_match_of_decode h
    refine ⟨mem_opcodeTable_iff.2 ⟨i, rfl⟩, hmatch, fun row hrow hother => ?_⟩
    obtain ⟨j, rfl⟩ := mem_opcodeTable_iff.1 hrow
    obtain rfl : i = j.withOperands w := Except.ok.inj (h.symm.trans (decode_of_row_match hother))
    rw [Instr.row_withOperands]

/-- Settles O6, by cases on the assembly command: axcor and ctrl by their sums, `hstop` by its expansion. -/
theorem assemblerAgreesWithEncoder : Obligations.AssemblerAgreesWithEncoder := by
  refine ⟨fun a ha => ?_, fun a ha => ?_, word_hstop, fun poll r g b m0 m1 => ?_⟩
  · cases a with
    | axcor raw => exact ⟨_, if_pos ha, rfl, word_axcor ha⟩
    | ctrl poll r g b m0 m1 => exact ctrl_assembles ha
    | hstop poll r g b =>
      rw [instr_hstop, word_hstop]
      exact ctrl_assembles (inRange_hstop poll r g b ▸ ha)
    | _ => exact ⟨_, rfl, rfl, rfl⟩
  · have hrejected : ¬ a.inRange = true := by simp [ha]
    exact ⟨if_neg hrejected, if_neg hrejected⟩
  · simp only [inRange_ctrl_iff, Nat.lt_succ_iff]

/-- Settles O1: the eight words are closed, and the decoder is run on each. -/
theorem decodesWordsOfTheSpec : Obligations.DecodesWordsOfTheSpec := by
  unfold Obligations.DecodesWordsOfTheSpec
  decide

end Sys2Proof.Machine
end

section
/-! PROOFS of the statements on the Field Codec primitives (spec/40_field_codec.md): `setIf` bit by bit, and `bit` as the
remainder of a shifted byte. -/

namespace Sys2Proof.Machine

/-- R102: entries with the same mask OR together, in their conditions. -/
theorem setIf_setIf_same_mask (v m : Half) (c d : Bool) : setIf (setIf v m c) m d = setIf v m (c || d) := by
  apply BitVec.eq_of_getLsbD_eq
  intro j _
  simp only [getLsbD_setIf, Bool.or_assoc, Bool.and_or_distrib_right]

/-- R100: a byte's bit, in the rule's own arithmetic. -/
theorem getLsbD_eq_div_mod (b : Byte) (k : Nat) : b.getLsbD k = (b.toNat / 2 ^ k % 2 == 1) := by
  rw [← BitVec.testBit_toNat, Nat.testBit_eq_decide_div_mod_eq, beq_eq_decide]

/-- R101: a byte index past the data, or a bit index past 7, gives no value. -/
theorem bitAt_eq_none {data : List Byte} {i k : Nat} (h : data.length ≤ i ∨ 7 < k) : bitAt data i k = none := by
  rw [bitAt_eq_map]
  obtain hi | hk := h
  · rw [byteAt, List.getElem?_eq_none hi, Option.map_none, ite_self]
  · rw [if_neg (Nat.not_le.2 hk)]

/-- Settles O53: `setIf` read bit by bit. -/
theorem setIfNeverClearsABit : Obligations.SetIfNeverClearsABit := by
  refine ⟨fun v m c => ⟨rfl, fun j hv => ?_, fun j hc hm => ?_⟩, setIf_setIf_same_mask, by decide, by decide⟩
  · rw [getLsbD_setIf, hv, Bool.true_or]
  · rw [getLsbD_setIf, hc, hm, Bool.and_self, Bool.or_true]

/-- Settles O54: in range `bit` reads the byte's own bit, and out of range nothing. -/
theorem bitReadsOneBitOrNothing : Obligations.BitReadsOneBitOrNothing := by
  refine ⟨fun data i k => ⟨fun ⟨hi, hk⟩ => ?_, bitAt_eq_none⟩, by decide, by decide⟩
  refine ⟨data[i], List.getElem?_eq_getElem hi, ?_⟩
  rw [bitAt_eq_some hi hk, getLsbD_eq_div_mod]

end Sys2Proof.Machine
end

section
/-! PROOFS of the statements on the Axis Corrector (spec/41_axis_corrector.md): the three cases of the correction, the range of
a corrected sample, the dead band, and the two sides of the center. -/

namespace Sys2Proof.Machine

/-! ### The three cases of the correction -/

section
variable {a : AxisRegs} {raw : Int}

/-- R123, below the dead band. -/
theorem rescale_of_lt_low (hlow : raw < a.low) : rescale a raw = a.scale * (raw - a.low) / 16384 := by
  rw [rescale_eq, if_pos hlow]

/-- R123, above the dead band. -/
theorem rescale_of_high_lt (hlow : a.low ≤ raw) (hhigh : a.high < raw) :
    rescale a raw = a.scale * (raw - a.high) / 16384 := by
  rw [rescale_eq, if_neg hlow.not_gt, if_pos hhigh]

/-- R123, inside the dead band. -/
theorem rescale_of_mem_deadBand (hlow : a.low ≤ raw) (hhigh : raw ≤ a.high) : rescale a raw = 0 := by
  rw [rescale_eq, if_neg hlow.not_gt, if_neg hhigh.not_gt]

end

/-! ### The range of a corrected sample -/

/-- R125: the value AXCOR reports, with the saturation and the floor shift written out. -/
theorem axisHalf_eq (a : AxisRegs) (raw : Byte) : axisHalf a raw = BitVec.ofInt 16 (max (-32767) (min 32767 (
    if (raw.toNat : Int) < a.low then (a.scale * ((raw.toNat : Int) - a.low)) / 16384
    else if a.high < (raw.toNat : Int) then (a.scale * ((raw.toNat : Int) - a.high)) / 16384 else 0))) := by
  rw [axisHalf, correctAxis, clamp_eq, rescale_eq]

/-- R123: sixteen bits hold a corrected sample exactly. -/
theorem axisHalf_toInt (a : AxisRegs) (raw : Byte) : (axisHalf a raw).toInt = correctAxis a raw := by
  have hge : -32767 ≤ correctAxis a raw := clamp_ge _
  have hle : correctAxis a raw ≤ 32767 := clamp_le _
  exact BitVec.toInt_ofInt_eq_self (by norm_num) (by norm_num; omega) (by norm_num; omega)

/-- R122: no sample corrects to -32768. -/
theorem correctAxis_ne_min (a : AxisRegs) (raw : Byte) : correctAxis a raw ≠ -32768 := by
  have hge : -32767 ≤ correctAxis a raw := clamp_ge _
  omega

/-! ### The dead band -/

theorem clamp_eq_zero_iff (x : Int) : clamp x = 0 ↔ x = 0 := by
  rw [clamp_eq]
  omega

/-- R124: a scale of at least `2^14` moves every sample outside the dead band away from 0: one step below it already gives
at most -1, one step above at least 1. -/
theorem rescale_eq_zero_iff {a : AxisRegs} (hscale : 16384 ≤ a.scale) (raw : Int) :
    rescale a raw = 0 ↔ a.low ≤ raw ∧ raw ≤ a.high := by
  rcases lt_or_ge raw a.low with hlow | hlow
  · have hneg : a.scale * (raw - a.low) < 0 := mul_neg_of_pos_of_neg (by omega) (by omega)
    rw [rescale_of_lt_low hlow]
    omega
  rcases lt_or_ge a.high raw with hhigh | hhigh
  · have hstep : a.scale * 1 ≤ a.scale * (raw - a.high) := mul_le_mul_of_nonneg_left (by omega) (by omega)
    rw [rescale_of_high_lt hlow hhigh]
    omega
  · simp [rescale_of_mem_deadBand hlow hhigh, hlow, hhigh]

/-- R27: the least valid scale, `2^29 / 127`, is far above `2^14`. -/
theorem axisRegsOf_scale_ge {c : Cfg} (h : axisValid c = true) : 16384 ≤ (axisRegsOf c).scale := by
  obtain ⟨-, -, -, hspan1, hspan127⟩ := axisRegsOf_ranges h
  rw [axisRegsOf_scale h]
  exact le_trans (by norm_num) (scale_range hspan1 hspan127).1

/-! ### The two sides of the center -/

/-- R120: the dead band lies `AXIS_DZ` on either side of the center. -/
theorem axisRegsOf_edges {c : Cfg} (h : axisValid c = true) :
    (axisRegsOf c).low = (axisRegsOf c).center - c.axisDz.val ∧
      (axisRegsOf c).high = (axisRegsOf c).center + c.axisDz.val := by
  rw [axisRegsOf_eq_ediv h]
  exact ⟨rfl, rfl⟩

/-- R124: at a distance `d` above a center whose dead band has half-width `dz`, the sample is `d - dz` above the band. -/
theorem rescale_center_add {a : AxisRegs} {dz d : Int} (hdz : 0 ≤ dz) (hd : dz < d) (hlow : a.low = a.center - dz)
    (hhigh : a.high = a.center + dz) : rescale a (a.center + d) = a.scale * (d - dz) / 16384 := by
  rw [rescale_of_high_lt (by omega) (by omega), hhigh, add_sub_add_left_eq_sub]

/-- R124: at a distance `d` below the center, the sample is `d - dz` below the band: the same product, negated. -/
theorem rescale_center_sub {a : AxisRegs} {dz d : Int} (hd : dz < d) (hlow : a.low = a.center - dz) :
    rescale a (a.center - d) = -(a.scale * (d - dz)) / 16384 := by
  rw [rescale_of_lt_low (by omega), hlow, sub_sub_sub_cancel_left, ← neg_sub d dz, mul_neg]

/-! ### The statements -/

/-- Settles O18, from the two branches of AXCOR. -/
theorem axcorResult : Obligations.AxcorResult := by
  intro raw s
  rw [exec_axcor, ← axisHalf_eq]
  exact ⟨fun hok => if_pos hok, fun hbad => if_neg (by simp [hbad])⟩

/-- Settles O19: the clauses of `clamp` by its minimum and maximum, and the two's complement of -32768 by reading it back. -/
theorem clampSaturates : Obligations.ClampSaturates := by
  refine ⟨fun x => ?_, fun a raw => ⟨correctAxis_ne_min a raw, fun hmin => correctAxis_ne_min a raw ?_⟩⟩
  · rw [clamp_eq]
    omega
  · rw [← axisHalf_toInt, hmin]
    decide

/-- Settles O20: saturation keeps the zeros of the scaled distance, which are the dead band's samples. -/
theorem deadBandIsExactlyAtRest : Obligations.DeadBandIsExactlyAtRest := by
  intro c raw hvalid
  rw [correctAxis, clamp_eq_zero_iff, rescale_eq_zero_iff (axisRegsOf_scale_ge hvalid), axisRegsOf_eq_ediv hvalid]

/-- Settles O21: the two sides shift a product and its negation, and the floor of a negation is the negated floor or one less. -/
theorem correctionIsOddUpToRounding : Obligations.CorrectionIsOddUpToRounding := by
  intro c d hvalid hd
  obtain ⟨hlow, hhigh⟩ := axisRegsOf_edges hvalid
  rw [rescale_center_sub hd hlow, rescale_center_add (by omega) hd hlow hhigh]
  omega

end Sys2Proof.Machine
end

section
/-! PROOFS of the statements on the Report Decoder (spec/42_report_decoder.md): the fields of an accepted report, the bytes a
decode reads, the fields of an LDSTATE image. -/

namespace Sys2Proof.Machine

/-! ### The fields of an accepted report -/

/-- R153: a map entry's report bit is set when its byte is there and holds the bit; no byte holds a bit above 7. -/
theorem reportBit_eq_some_true_iff {c : Cfg} {din : List Byte} {e : MapEntry} :
    reportBit c din e = some true ↔
      ∃ b, din[c.base.val + e.off.val]? = some b ∧ b.getLsbD e.bit.val = true := by
  rw [reportBit, bitAt]
  by_cases hbit : e.bit.val ≤ 7
  · rw [if_pos hbit, Option.map_eq_some_iff]
  · simp [hbit, BitVec.getLsbD_of_ge _ _ (Nat.not_le.1 hbit)]

/-- R156: the sequence counter as a number. -/
theorem seqOf_eq (b : Byte) : seqOf b = BitVec.ofNat 16 (b.toNat / 4) := by
  apply BitVec.eq_of_toNat_eq
  simp [seqOf, Nat.shiftRight_eq_div_pow]
  omega

/-- R29: the flag byte of a dpad nibble. -/
theorem flagsByte_dpad (n : Nat) : flagsByte (decide (8 ≤ n)) = if n < 8 then 0x00#8 else 0x01#8 := by
  by_cases hn : n < 8
  · simp [flagsByte, hn]
  · simp [flagsByte, hn, Nat.not_lt.1 hn]

/-- R152: the nibbles the block accepts are 0..7, which seed the bitmask from `DPAD_TABLE`, and under NONE 8..15, which seed
nothing and set the dpad-none flag. -/
theorem dpadSeed_of_accepted {c : Cfg} {n : Fin 16} (h : n.val < 8 ∨ c.dpadPolicy = .none) :
    ∃ seed : Half, dpadSeed c n = .ok (seed, decide (8 ≤ n.val)) ∧
      (∀ k : Fin 8, n.val = k.val → seed.toNat = (c.dpadTable[k]).toNat) ∧ (8 ≤ n.val → seed = 0x0000#16) := by
  rcases dpadSeed_cases c n with ⟨hn, hd⟩ | ⟨hn, -, hd⟩ | ⟨hn, hp, -⟩
  · refine ⟨_, by rw [hd, decide_eq_false (by omega)], fun k hk => ?_, by omega⟩
    have hfit : (c.dpadTable[k]).toNat < 2 ^ 16 := lt_trans (c.dpadTable[k]).isLt (by norm_num)
    simpa [hk] using hfit
  · exact ⟨_, by rw [hd, decide_eq_true hn], fun k hk => absurd k.isLt (by omega), fun _ => rfl⟩
  · simp [hp, Nat.not_lt.2 hn] at h

/-- R152: a seed is four bits wide. -/
theorem dpadSeed_getLsbD_high {c : Cfg} {n : Fin 16} {seed : Half} {dn : Bool} (h : dpadSeed c n = .ok (seed, dn))
    {j : Nat} (hj : 4 ≤ j) : seed.getLsbD j = false := by
  rcases dpadSeed_cases c n with ⟨hn, hd⟩ | ⟨-, -, hd⟩ | ⟨-, -, hd⟩ <;> cases h.symm.trans hd
  · simp [BitVec.getLsbD_of_ge _ _ hj]
  · exact BitVec.getLsbD_zero

/-- R157: a report that passes every check of DECODE_CORE decodes to its fields. -/
theorem decodeReport_of_fields {s : State} {b : Byte} {seed : Half} {dn : Bool} {d : Decoded} (hc : s.cfgOk = true)
    (hl : s.cfg.reportLen ≤ s.din.length) (ht : tagMatches s.cfg s.din = true)
    (hb : reportByte s.cfg s.din s.cfg.offBtn0 = some b) (hseed : dpadSeed s.cfg (dpadNibble b) = .ok (seed, dn))
    (hd : reportFields s.cfg s.ax s.din seed dn = some d) : decodeReport s = some (.ok d) := by
  simp [decodeReport, hc, Nat.not_lt.2 hl, ht, hb, hseed, hd]

/-- R155: each axis latched is its report byte, corrected. -/
theorem reportAxes_getElem {c : Cfg} {a : AxisRegs} {din : List Byte} {ax : Vector Half 4}
    (h : reportAxes c a din = some ax) (k : Fin 4) :
    ∃ raw, din[c.base.val + (c.offAx[k]).val]? = some raw ∧ ax[k] = axisHalf a raw := by
  obtain ⟨r0, r1, r2, r3, h0, h1, h2, h3, rfl⟩ := reportAxes_eq.1 h
  match k with
  | 0 => exact ⟨r0, h0, rfl⟩
  | 1 => exact ⟨r1, h1, rfl⟩
  | 2 => exact ⟨r2, h2, rfl⟩
  | 3 => exact ⟨r3, h3, rfl⟩

/-! ### The bytes a decode reads -/

section
variable {c : Cfg} {din din' : List Byte}

theorem reportByte_congr (hpre : din.take c.reportLen = din'.take c.reportLen) {o : U8} (ho : o.val ≤ 9) :
    reportByte c din o = reportByte c din' o :=
  byteAt_take hpre (by rw [Cfg.reportLen]; omega)

theorem reportBit_congr (hpre : din.take c.reportLen = din'.take c.reportLen) {e : MapEntry} (he : e.off.val ≤ 9) :
    reportBit c din e = reportBit c din' e := by
  have hbyte : byteAt din (c.base.val + e.off.val) = byteAt din' (c.base.val + e.off.val) := reportByte_congr hpre he
  rw [reportBit, reportBit, bitAt_eq_map, bitAt_eq_map, hbyte]

theorem tagMatches_congr (hpre : din.take c.reportLen = din'.take c.reportLen) :
    tagMatches c din = tagMatches c din' := by
  rw [tagMatches, tagMatches, byteAt_take hpre (by rw [Cfg.reportLen]; omega)]

/-- R153: the bitmask depends on the entries' own bits. -/
theorem orMap_congr {es : List MapEntry} (h : ∀ e ∈ es, reportBit c din e = reportBit c din' e) (v : Half) :
    orMap c din es v = orMap c din' es v := by
  induction es generalizing v with
  | nil => rfl
  | cons e es ih =>
    rw [orMap, orMap, h e List.mem_cons_self]
    cases reportBit c din' e with
    | none => rfl
    | some b => exact ih (fun e' he' => h e' (List.mem_cons_of_mem e he')) _

/-- R151, R7 (1): every field of a report lies in its first `BASE + 10` bytes. -/
theorem reportFields_congr (hc : c.Admissible) (hpre : din.take c.reportLen = din'.take c.reportLen) (a : AxisRegs)
    (seed : Half) (dn : Bool) : reportFields c a din seed dn = reportFields c a din' seed dn := by
  have hbits : orMap c din c.mapEntries seed = orMap c din' c.mapEntries seed :=
    orMap_congr (fun e he => reportBit_congr hpre (hc.1.1 e he).2) seed
  have hbyte : ∀ o ∈ c.reportOffsets, reportByte c din o = reportByte c din' o :=
    fun o ho => reportByte_congr hpre (reportOffset_le hc ho)
  have haxes : reportAxes c a din = reportAxes c a din' := by
    simp only [reportAxes, hbyte _ (offAx_mem c _ _)]
  simp only [reportFields, hbits, haxes, hbyte c.offLt (by simp [Cfg.reportOffsets]),
    hbyte c.offRt (by simp [Cfg.reportOffsets]), hbyte c.offMisc (by simp [Cfg.reportOffsets])]

end

/-- R151: DECODE_CORE's answer depends on the first `BASE + 10` bytes of a report long enough. -/
theorem decodeReport_congr {s : State} {din' : List Byte} (hc : s.cfg.Admissible)
    (hl : s.cfg.reportLen ≤ s.din.length) (hl' : s.cfg.reportLen ≤ din'.length)
    (hpre : s.din.take s.cfg.reportLen = din'.take s.cfg.reportLen) :
    decodeReport { s with din := din' } = decodeReport s := by
  have hbtn : reportByte s.cfg s.din s.cfg.offBtn0 = reportByte s.cfg din' s.cfg.offBtn0 :=
    reportByte_congr hpre (reportOffset_le hc (by simp [Cfg.reportOffsets]))
  simp only [decodeReport, Nat.not_lt.2 hl, Nat.not_lt.2 hl', tagMatches_congr hpre, hbtn,
    reportFields_congr hc hpre]

/-- DECODE and DECENC see `DIN` only through what DECODE_CORE answers. -/
theorem decodeCore_setDin {f : LogicalState → List Byte} {s t : State} {din' : List Byte}
    (hd : decodeReport { s with din := din' } = decodeReport s) (h : decodeCore f s = .next t) :
    decodeCore f { s with din := din' } = .next { t with din := din' } := by
  rcases decodeCore_next h with ⟨e, he, rfl⟩ | ⟨d, hok, rfl⟩
  · exact decodeCore_of_error f (hd.trans he)
  · exact decodeCore_of_ok f (hd.trans hok)

/-! ### The fields of an LDSTATE image -/

/-- R104: the little-endian value of two bytes is the high byte put before the low one. -/
theorem ofNat_bytes_eq_append (lo hi : Byte) : BitVec.ofNat 16 (lo.toNat + 256 * hi.toNat) = hi ++ lo := by
  apply BitVec.eq_of_toNat_eq
  rw [toNat_append_eq, BitVec.toNat_ofNat]
  omega

theorem rd16le_eq_append {data : List Byte} {i : Nat} {lo hi : Byte} (hlo : byteAt data i = some lo)
    (hhi : byteAt data (i + 1) = some hi) : rd16le data i = some (hi ++ lo) := by
  simp only [rd16le, hlo, hhi, ofNat_bytes_eq_append]

theorem u16le_append (lo hi : Byte) : u16le (hi ++ lo) = [lo, hi] := by
  rw [← ofNat_bytes_eq_append, u16le_of_bytes]

/-- R159: the fields of a 12-byte image. -/
theorem imageState_of_bytes (b0 b1 b2 b3 b4 b5 b6 b7 b8 b9 b10 b11 : Byte) :
    imageState [b0, b1, b2, b3, b4, b5, b6, b7, b8, b9, b10, b11] =
      some ⟨b1 ++ b0, b2, b3, #v[b5 ++ b4, b7 ++ b6, b9 ++ b8, b11 ++ b10]⟩ := by
  rw [imageState, rd16le_eq_append (i := 0) rfl rfl, rd16le_eq_append (i := 4) rfl rfl,
    rd16le_eq_append (i := 6) rfl rfl, rd16le_eq_append (i := 8) rfl rfl, rd16le_eq_append (i := 10) rfl rfl]
  rfl

/-- R159, R180: the packet of a loaded image is 0x01 and the image. -/
theorem wire_of_imageState {din : List Byte} {l : LogicalState} (hn : din.length = 12)
    (h : imageState din = some l) : wire l = 0x01#8 :: din := by
  match din, hn with
  | [b0, b1, b2, b3, b4, b5, b6, b7, b8, b9, b10, b11], _ =>
    cases (imageState_of_bytes b0 b1 b2 b3 b4 b5 b6 b7 b8 b9 b10 b11).symm.trans h
    simp [wire, u16le_append]

/-! ### The statements -/

/-- Settles O23: the report passes DECODE_CORE's checks, and admissibility puts every field it reads inside the report. -/
theorem decodeAcceptsReport : Obligations.DecodeAcceptsReport := by
  intro s dp hc hok hl htag hdp hacc
  rw [← dpadNibble_val dp] at hacc ⊢
  obtain ⟨seed, hseed, htable, hzero⟩ := dpadSeed_of_accepted hacc
  obtain ⟨d, hd⟩ := reportFields_isSome hc s.ax hl seed (decide (8 ≤ (dpadNibble dp).val))
  have hrep : decodeReport s = some (.ok d) :=
    decodeReport_of_fields hok hl ((tagMatches_iff _ _).2 htag) hdp hseed hd
  obtain ⟨btn, lt, rt, ax, misc, hbtn, hlt, hrt, hax, hmisc, rfl⟩ := reportFields_eq.1 hd
  refine ⟨_, _, _, seed, decodeCore_of_ok (fun _ => []) hrep, decodeCore_of_ok wire hrep, hlt, hrt,
    reportAxes_getElem hax, ⟨misc, hmisc, seqOf_eq misc⟩, flagsByte_dpad _, htable, hzero, fun j _ => ?_⟩
  simp only [orMap_getLsbD hbtn, reportBit_eq_some_true_iff]

/-- Settles O26: a failed decode drops the latch, and ENCODE sees no other state. -/
theorem failedDecodeWithholdsPacket : Obligations.FailedDecodeWithholdsPacket := by
  intro i s m r hi h hr hfail
  rcases exec_decoder_next hi h with ⟨e, -, rfl⟩ | ⟨d, out, -, rfl⟩ <;> cases hr
  · exact ⟨rfl, fun held din rest => (exec_encode _).trans (execEncode_of_none rfl)⟩
  · exact absurd rfl hfail

/-- Settles O27: DECODE_CORE reads the length of a report and its first `BASE + 10` bytes. -/
theorem reportTailIsIgnored : Obligations.ReportTailIsIgnored := by
  intro i s t din' hi hc hl hl' hpre h
  obtain ⟨f, hf⟩ := exec_eq_decodeCore hi
  rw [hf] at h ⊢
  exact decodeCore_setDin (decodeReport_congr hc hl hl' hpre) h

/-- Settles O29, from the fields of the image. -/
theorem ldstateLatchesImage : Obligations.LdstateLatchesImage := by
  intro s b0 b1 b2 b3 b4 b5 b6 b7 b8 b9 b10 b11 hdin
  exact execLdstate_of_image (by rw [hdin]; rfl) (by rw [hdin, imageState_of_bytes])

/-- Settles O32: LDSTATE latches the image's fields, and their packet is the image after 0x01. -/
theorem loadedImageIsThePacket : Obligations.LoadedImageIsThePacket := by
  intro s m held din rest hn h
  rcases execLdstate_next h with ⟨hne, -⟩ | ⟨l, -, hl, rfl⟩
  · exact absurd hn hne
  · rw [← wire_of_imageState hn hl]
    exact (exec_encode _).trans (execEncode_of_some rfl)

/-- Settles O28: the masks are RC's twelve; bit `j` of the dpad pattern is alone in the seed of nibble `2 * j`. -/
theorem referenceBitmaskHasOneSourcePerBit : Obligations.ReferenceBitmaskHasOneSourcePerBit := by
  refine ⟨by decide, fun j hj => ?_, fun n => ?_⟩
  · obtain rfl | rfl | rfl | rfl : j = 0 ∨ j = 1 ∨ j = 2 ∨ j = 3 := by omega
    · exact ⟨0, _, _, by decide, rfl, by decide⟩
    · exact ⟨2, _, _, by decide, rfl, by decide⟩
    · exact ⟨4, _, _, by decide, rfl, by decide⟩
    · exact ⟨6, _, _, by decide, rfl, by decide⟩
  · obtain ⟨seed, hseed, -⟩ := dpadSeed_of_accepted (c := Cfg.rc) (n := n) (.inr rfl)
    exact ⟨seed, _, hseed, fun j hj => dpadSeed_getLsbD_high hseed hj⟩

end Sys2Proof.Machine
end

section
/-! PROOFS of the statements on the Wire Packet Encoder (spec/43_wire_encoder.md): the bytes of the packet, DECENC against DECODE
and then ENCODE, the end-to-end example. -/

namespace Sys2Proof.Machine

/-- R180: the packet byte by byte. -/
theorem wire_eq_bytes (l : LogicalState) :
    wire l = [0x01#8, l.btn.extractLsb' 0 8, l.btn.extractLsb' 8 8, l.lt, l.rt,
      l.ax[0].extractLsb' 0 8, l.ax[0].extractLsb' 8 8, l.ax[1].extractLsb' 0 8, l.ax[1].extractLsb' 8 8,
      l.ax[2].extractLsb' 0 8, l.ax[2].extractLsb' 8 8, l.ax[3].extractLsb' 0 8, l.ax[3].extractLsb' 8 8] := rfl

/-! ### The end-to-end example -/

/-- The response to a command is what it left when its buffers close. -/
theorem responseOf_closeBuffers (o : Host.Outcome State Fault Refusal) : responseOf (closeBuffers o) = responseOf o := by
  cases o <;> rfl

/-- The response to an accepted command is that of its instruction. -/
theorem responseOf_step_command {s : State} {w : Word64} {din : List Byte} {rest : List HostAction} {i : Instr}
    (ha : s.cfg.Admissible) (hi : s.inbox = .command w din :: rest) (hr : s.resp = none)
    (hl : din.length ≤ s.cfg.dinMax.val) (hd : decode w = .ok i) :
    responseOf (step s) = responseOf (exec i (openBuffers din rest s)) := by
  rw [step_command ha hi hr hl, responseOf_closeBuffers, performWord_of_ok hd]

/-- R184: the report of the end-to-end example: dpad nibble 0 and button bit 7, triggers 10 and 20, axes 0, 255, 128, 128. -/
def endToEndReport : List Byte :=
  [0x11#8, 0x00#8, 0x00#8, 0x00#8, 0xFF#8, 0x80#8, 0x80#8, 0x80#8, 0x00#8, 0x00#8, 0x0A#8, 0x14#8]

/-- R184: what it decodes to under RC: the axes -32767, 32767, 0 and 0. -/
def endToEndState : LogicalState :=
  ⟨0x0001#16 ||| 0x8000#16, 0x0A#8, 0x14#8, #v[0x8001#16, 0x7FFF#16, 0x0000#16, 0x0000#16]⟩

/-! ### The statements -/

/-- Settles O25, by the two ways DECODE_CORE ends: an error fails DECODE and DECENC alike, a decoded report is latched by both. -/
theorem decencIsDecodeThenEncode : Obligations.DecencIsDecodeThenEncode := by
  intro s t h
  rcases decodeCore_next h with ⟨e, he, rfl⟩ | ⟨d, hd, rfl⟩
  · exact ⟨_, _, decodeCore_of_error (fun _ => []) he, rfl, fun _ => rfl,
      fun hok => absurd hok (decodeReport_error_ne_ok he)⟩
  · have hencode : exec .encode (finish d.seq (flagsByte d.dpadNone) [] (latch d.lstate s)) =
        .next (finish 0x0000#16 0x00#8 (wire d.lstate) (finish d.seq (flagsByte d.dpadNone) [] (latch d.lstate s))) :=
      (exec_encode _).trans (execEncode_of_some rfl)
    exact ⟨_, _, decodeCore_of_ok (fun _ => []) hd, rfl, fun hne => absurd rfl hne,
      fun _ => ⟨_, _, hencode, rfl, rfl, rfl⟩⟩

/-- Settles O31, by the two cases of the latch (R182) and the bytes of the packet. -/
theorem encodeEmitsWirePacket : Obligations.EncodeEmitsWirePacket := by
  refine fun s => ⟨fun l hl => ?_, fun hl => (exec_encode s).trans (execEncode_of_none hl)⟩
  rw [← wire_eq_bytes]
  exact (exec_encode s).trans (execEncode_of_some hl)

/-- Settles O33: the word is DECENC, and the report decodes under RC to the state whose packet is given. -/
theorem endToEndExampleUnderReference : Obligations.EndToEndExampleUnderReference := by
  obtain ⟨hrc, -, -⟩ := referenceConfigurationDerives
  have hdecode : decodeReport (openBuffers endToEndReport [] { State.reset with
      inbox := [.command 0x0000000000000004#64 endToEndReport] }) = some (.ok ⟨endToEndState, 0x0000#16, false⟩) := by
    decide +kernel
  have hword : decode 0x0000000000000004#64 = .ok .decenc := by decide
  refine (responseOf_step_command hrc rfl rfl (by decide) hword).trans ?_
  exact congrArg responseOf (decodeCore_of_ok wire hdecode)

end Sys2Proof.Machine
end

section
/-! PROOFS of the statements on the Control Frame Builder (spec/44_frame_builder.md): the trailer of a frame, the bytes of a
ControlFrame and of an AudioFrame, BAD_LENGTH, the check values of the CRC. -/

namespace Sys2Proof.Machine

/-! ### The trailer of a frame -/

/-- R204: the trailer of a frame, read little-endian, is the CRC of `CRC_PREFIX` and the body. -/
theorem rd32le_frame (p : Byte) (body : List Byte) : rd32le (frame p body) body.length = some (crc32 (p :: body)) := by
  rw [frame, ← List.append_nil (body ++ _)]
  exact rd32le_append_u32le body [] _

/-- R202: what a CTRL or an AUDIO that completes with OK emits is a frame under `CRC_PREFIX`. -/
theorem dout_eq_frame {i : Instr} {s t : State} {r : Response}
    (hi : i = .audio ∨ ∃ poll red g b m0 m1, i = .ctrl poll red g b m0 m1) (h : exec i s = .next t) (hr : t.resp = some r)
    (hok : r.status = .ok) : ∃ body, r.dout = frame s.cfg.crcPrefix body := by
  obtain rfl | ⟨poll, red, g, b, m0, m1, rfl⟩ := hi
  · rcases execAudio_next h with ⟨-, rfl⟩ | ⟨-, rfl⟩ <;> cases hr
    · cases hok
    · exact ⟨_, rfl⟩
  · cases execCtrl_next h
    cases hr
    exact ⟨_, rfl⟩

/-! ### The bytes of a ControlFrame -/

section
variable {c : Cfg} {poll r g b m0 m1 : Byte}

/-- R7 (5): CTRL writes inside the body. -/
theorem ctrlWrites_lt_ctrlLen (hc : c.Admissible) {k : Nat} {v : Byte} (h : (k, v) ∈ ctrlWrites c poll r g b m0 m1) :
    k < c.ctrlLen.val := by
  obtain ⟨-, -, -, -, ⟨-, hfit⟩, -, -, hlen, -⟩ := hc
  have hk : k ∈ 0 :: c.ctrlOffsets.map Fin.val := ctrlWrites_offsets c poll r g b m0 m1 ▸ List.mem_map_of_mem h
  rcases List.mem_cons.1 hk with rfl | hk
  · exact hlen
  · obtain ⟨o, ho, rfl⟩ := List.mem_map.1 hk
    exact (hfit o ho).2

/-- R206 to R208: each field CTRL writes stands at its offset in the frame. -/
theorem ctrlFrame_of_write (hc : c.Admissible) (p : Byte) {k : Nat} {v : Byte}
    (h : (k, v) ∈ ctrlWrites c poll r g b m0 m1) : (frame p (ctrlBody c poll r g b m0 m1))[k]? = some v := by
  have hk : k < c.ctrlLen.val := ctrlWrites_lt_ctrlLen hc h
  have hbody : (ctrlBody c poll r g b m0 m1).length = c.ctrlLen.val := ctrlBody_length hc poll r g b m0 m1
  rw [frame_getElem? _ _ _ (hbody ▸ hk)]
  exact writeFields_of_mem (ctrlWrites_nodup hc poll r g b m0 m1) h
    (hk.trans_eq (hbody.symm.trans (writeFields_length _ _)))

/-- R209: every other byte of the body is the template's. -/
theorem ctrlFrame_of_template (hc : c.Admissible) (p : Byte) {k : U8} (hlt : k.val < c.ctrlLen.val) (h0 : k ≠ 0)
    (hk : k ∉ c.ctrlOffsets) : (frame p (ctrlBody c poll r g b m0 m1))[k.val]? = c.ctrlTemplate[k.val]? := by
  have hwritten : k.val ∉ (ctrlWrites c poll r g b m0 m1).map Prod.fst := by
    rw [ctrlWrites_offsets, List.mem_cons, List.mem_map_of_injective Fin.val_injective, not_or]
    exact ⟨fun h => h0 (Fin.ext h), hk⟩
  rw [frame_getElem? _ _ _ ((ctrlBody_length hc poll r g b m0 m1).symm ▸ hlt)]
  exact writeFields_of_not_mem hwritten _

end

/-- R206: `0xC0 | POLL` is the sum of the two for a `POLL` of six bits. -/
theorem toNat_modeByte {poll : Byte} (h : poll.toNat < 64) : (modeByte poll).toNat = 192 + poll.toNat := by
  rw [modeByte, BitVec.toNat_or]
  exact (Nat.two_pow_add_eq_or_of_lt (i := 6) h 3).symm

/-! ### The bytes of an AudioFrame -/

section
variable {c : Cfg} {ctr : Half} {payload : List Byte}

/-- R211, R7 (6): the counter in the header, little-endian. -/
theorem audioHeader_counter (hc : c.Admissible) (ctr : Half) :
    (audioHeader c ctr)[c.offCtr.val]? = some (ctr.extractLsb' 0 8) ∧
      (audioHeader c ctr)[c.offCtr.val + 1]? = some (ctr.extractLsb' 8 8) := by
  obtain ⟨-, -, -, -, -, ⟨-, hctr⟩, -⟩ := hc
  constructor
  · rw [audioHeader, List.getElem?_set_ne (Nat.succ_ne_self _), List.getElem?_set_self (by simp; omega)]
  · rw [audioHeader, List.getElem?_set_self (by simp; omega)]

/-- R211: the header's other bytes are the template's. -/
theorem audioHeader_of_template {k : Nat} (hlo : k ≠ c.offCtr.val) (hhi : k ≠ c.offCtr.val + 1) :
    (audioHeader c ctr)[k]? = c.audHdr.toList[k]? := by
  rw [audioHeader, List.getElem?_set_ne hhi.symm, List.getElem?_set_ne hlo.symm]

/-- R210: the header stands first in the frame. -/
theorem audioFrame_header (p : Byte) {k : Nat} (hk : k < 6) :
    (frame p (audioBody c ctr payload))[k]? = (audioHeader c ctr)[k]? := by
  rw [frame_getElem? _ _ _ (by rw [audioBody_length]; omega), audioBody, List.append_assoc,
    List.getElem?_append_left (by simpa using hk)]

/-- R210, R212: the payload stands after the header. -/
theorem audioFrame_payload (p : Byte) {k : Nat} (hk : k < payload.length) :
    (frame p (audioBody c ctr payload))[6 + k]? = payload[k]? := by
  rw [frame_getElem? _ _ _ (by rw [audioBody_length]; omega), audioBody, List.append_assoc,
    List.getElem?_append_right (by simp), audioHeader_length, Nat.add_sub_cancel_left, List.getElem?_append_left hk]

/-- R210, R213: the padding stands after the payload. -/
theorem audioFrame_padding (p : Byte) {k : Nat} (hk : k < 4) :
    (frame p (audioBody c ctr payload))[6 + payload.length + k]? = c.audPad.toList[k]? := by
  have hlen : (audioHeader c ctr ++ payload).length = 6 + payload.length := by simp
  rw [frame_getElem? _ _ _ (by rw [audioBody_length]; omega), audioBody, List.getElem?_append_right (by omega), hlen,
    Nat.add_sub_cancel_left]

end

/-! ### AUDIO and LDSTATE by the length of `DIN` -/

section
variable {s : State}

/-- R218: AUDIO of an exact payload. -/
theorem execAudio_of_length (h : s.din.length = s.cfg.audN.val) :
    execAudio s =
      .next (finish s.audCtr 0x00#8 (frame s.cfg.crcPrefix (audioBody s.cfg s.audCtr s.din)) (advanceCounter s)) :=
  if_pos h

/-- R217: AUDIO of any other length. -/
theorem execAudio_of_badLength (h : s.din.length ≠ s.cfg.audN.val) : execAudio s = .next (raise .badLength s) :=
  if_neg h

/-- R160: LDSTATE of an image that is not 12 bytes long. -/
theorem execLdstate_of_badLength (h : s.din.length ≠ 12) : execLdstate s = .next (raise .badLength s) :=
  if_neg h

/-- R23, R218: the advanced counter as a sum modulo 2^16. -/
theorem advanceCounter_eq (s : State) :
    advanceCounter s = { s with audCtr := BitVec.ofNat 16 (s.audCtr.toNat + s.cfg.audStride.toNat) } := by
  rw [advanceCounter, BitVec.ofNat_add, BitVec.ofNat_toNat, BitVec.ofNat_toNat, BitVec.setWidth_eq, BitVec.setWidth_eq]

end

/-! ### The example frame of R215 -/

/-- R215: the body of the example under RC, the colour red with `POLL` and motors 0. -/
def redBody : List Byte := ctrlBody Cfg.rc 0x00#8 0xFF#8 0x00#8 0x00#8 0x00#8 0x00#8

set_option maxRecDepth 2000 in
/-- R204, R215: the example's trailer is the CRC with `CRC_PREFIX`, and not the CRC without it. -/
theorem crc32_redBody : crc32 (Cfg.rc.crcPrefix :: redBody) = 0x162B6C69#32 ∧ crc32 redBody ≠ 0x162B6C69#32 := by
  decide +kernel

/-! ### The statements -/

/-- Settles O34: CTRL emits the frame of its body, whose bytes are the written fields and the template's. -/
theorem controlFrameLayout : Obligations.ControlFrameLayout := by
  intro poll r g b m0 m1 s hc
  have hlen : (ctrlBody s.cfg poll r g b m0 m1).length = s.cfg.ctrlLen.val := ctrlBody_length hc poll r g b m0 m1
  have hfield {k : Nat} {v : Byte} (h : (k, v) ∈ ctrlWrites s.cfg poll r g b m0 m1) :=
    ctrlFrame_of_write hc s.cfg.crcPrefix h
  refine ⟨frame s.cfg.crcPrefix (ctrlBody s.cfg poll r g b m0 m1), rfl, by rw [frame_length, hlen], ?_, ?_, ?_, ?_, ?_, ?_,
    ?_, ?_, fun k hlt h0 hk => ctrlFrame_of_template hc _ hlt h0 hk, by rw [← hlen, frame_drop, frame_take]⟩ <;>
    exact hfield (by simp [ctrlWrites, modeByte])

/-- Settles O35: the mode byte is written at its offset, and a word's `POLL` is read from six bits. -/
theorem modeByteCarriesPollRate : Obligations.ModeByteCarriesPollRate := by
  refine ⟨fun poll r g b m0 m1 s t rsp hc hwf h hr => ?_, fun w poll r g b m0 m1 hpoll hdec => ?_⟩
  · have hpoll : poll.toNat < 64 := wellFormed_ctrl_iff.1 hwf
    cases execCtrl_next h
    cases hr
    refine ⟨modeByte poll, ctrlFrame_of_write hc _ (by simp [ctrlWrites]), ?_, ?_⟩ <;> rw [toNat_modeByte hpoll] <;> omega
  · obtain ⟨-, hwf⟩ := encodeOfDecode w _ hdec
    exact absurd (wellFormed_ctrl_iff.1 hwf) (Nat.not_lt.2 hpoll)

/-- Settles O36: the output is a frame, whose trailer follows its body; RC's example is computed with and without `CRC_PREFIX`. -/
theorem frameCrcRoundTrip : Obligations.FrameCrcRoundTrip := by
  refine ⟨fun i s t r hi h hr hok => ?_, _, _, rfl, rfl, ?_, ?_⟩
  · obtain ⟨body, hF⟩ := dout_eq_frame hi h hr hok
    rw [hF, frame_length, Nat.add_sub_cancel, frame_take]
    exact ⟨Nat.le_add_left _ _, rd32le_frame _ body⟩
  · obtain ⟨hcrc, -⟩ := crc32_redBody
    exact (rd32le_frame Cfg.rc.crcPrefix redBody).trans (congrArg some hcrc)
  · obtain ⟨-, hcrc⟩ := crc32_redBody
    rwa [← frame_take Cfg.rc.crcPrefix redBody] at hcrc

/-- Settles O38: AUDIO emits the frame of header, payload and padding, with the counter in the header. -/
theorem audioFrameLayout : Obligations.AudioFrameLayout := by
  intro s hc hn
  have hlen : (audioBody s.cfg s.audCtr s.din).length = s.cfg.audN.val + 10 := by rw [audioBody_length, hn]; omega
  obtain ⟨hlo, hhi⟩ := audioHeader_counter hc s.audCtr
  obtain ⟨-, -, -, -, -, ⟨-, hctr⟩, -⟩ := hc
  refine ⟨frame s.cfg.crcPrefix (audioBody s.cfg s.audCtr s.din), ?_, by rw [frame_length, hlen], ?_, ?_,
    fun k hk h0 h1 => ?_, fun k hk => audioFrame_payload _ (hn ▸ hk), fun k hk => hn ▸ audioFrame_padding _ hk,
    by rw [← hlen, frame_drop, frame_take]⟩
  · rw [exec_audio, execAudio_of_length hn, advanceCounter_eq]
    rfl
  · rw [audioFrame_header _ (by omega), hlo]
  · rw [audioFrame_header _ (by omega), hhi]
  · rw [audioFrame_header _ hk, audioHeader_of_template h0 h1]

/-- Settles O30: both commands test the length of `DIN` before they write. -/
theorem badLengthChangesNoState : Obligations.BadLengthChangesNoState :=
  fun _ => ⟨execLdstate_of_badLength, execAudio_of_badLength⟩

/-- Settles O37: the four messages are closed, and the CRC is run on each. -/
theorem crcCheckValues : Obligations.CrcCheckValues := by
  unfold Obligations.CrcCheckValues
  decide +kernel

end Sys2Proof.Machine
end

section
/-! PROOFS of the statements on exceptions and the idle block (spec/60_exceptions.md): an illegal word, the commands that test
`CFG_OK`, and the commands that do not read it. -/

namespace Sys2Proof.Machine

/-- R75, R76: a word that no row of the opcode table matches does not decode. -/
theorem decode_error_of_no_row {w : Word64} (h : ∀ row ∈ opcodeTable, w &&& row.mask ≠ row.pattern) :
    ∃ e, decode w = .error e := by
  cases hd : decode w with
  | error e => exact ⟨e, rfl⟩
  | ok i =>
    obtain ⟨hmatch, -⟩ := row_match_of_decode hd
    exact absurd hmatch (h i.row (mem_opcodeTable_iff.2 ⟨i, rfl⟩))

section
variable {s t : State}

/-- R125, R242: AXCOR while `CFG_OK = 0`. -/
theorem execAxcor_configError (raw : Byte) (hc : s.cfgOk = false) :
    execAxcor raw s = .next (raise .configError s) :=
  if_neg (by simp [hc])

/-- R157, R242: DECODE and DECENC while `CFG_OK = 0`. -/
theorem decodeCore_configError (f : LogicalState → List Byte) (hc : s.cfgOk = false) :
    decodeCore f s = .next (failDecode .configError s) :=
  decodeCore_of_error f (decodeReport_configError hc)

/-- R242: a command that does not use the Axis Corrector answers the same, whatever `CFG_OK` and the axis constants are, and
carries them along. -/
theorem exec_next_setAxis {i : Instr} (haxcor : ∀ raw, i ≠ .axcor raw) (hdecode : i ≠ .decode) (hdecenc : i ≠ .decenc)
    (h : exec i s = .next t) (ok : Bool) (ax : AxisRegs) :
    exec i { s with cfgOk := ok, ax := ax } = .next { t with cfgOk := ok, ax := ax } := by
  cases i with
  | axcor raw => exact absurd rfl (haxcor raw)
  | decode => exact absurd rfl hdecode
  | decenc => exact absurd rfl hdecenc
  | encode =>
    rcases execEncode_next h with ⟨hl, rfl⟩ | ⟨l, hl, rfl⟩
    · exact execEncode_of_none (s := { s with cfgOk := ok, ax := ax }) hl
    · exact execEncode_of_some (s := { s with cfgOk := ok, ax := ax }) hl
  | ldstate =>
    rcases execLdstate_next h with ⟨hn, rfl⟩ | ⟨l, hn, hl, rfl⟩
    · exact execLdstate_of_badLength (s := { s with cfgOk := ok, ax := ax }) hn
    · exact execLdstate_of_image (s := { s with cfgOk := ok, ax := ax }) hn hl
  | ctrl poll r g b m0 m1 => rw [execCtrl_next h]; rfl
  | audio =>
    rcases execAudio_next h with ⟨hn, rfl⟩ | ⟨hn, rfl⟩
    · exact execAudio_of_badLength (s := { s with cfgOk := ok, ax := ax }) hn
    · exact execAudio_of_length (s := { s with cfgOk := ok, ax := ax }) hn

end

/-! ### The statements -/

/-- Settles O8: the word does not decode, and the port raises ILLEGAL_CMD over the state it was given. -/
theorem illegalCommandChangesNoState : Obligations.IllegalCommandChangesNoState := by
  intro s w din rest ha hr hi hl hillegal
  obtain ⟨e, he⟩ := decode_error_of_no_row hillegal
  rw [step_command ha hi hr hl, performWord_of_error he, closeBuffers_next]
  rfl

/-- Settles O48: the three commands that use the axis constants test `CFG_OK` first, and no other command reads it. -/
theorem configErrorStopsOnlyAxisCommands : Obligations.ConfigErrorStopsOnlyAxisCommands :=
  ⟨fun _ hc => ⟨fun raw => execAxcor_configError raw hc, decodeCore_configError (fun _ => []) hc,
      decodeCore_configError wire hc⟩,
    fun _ _ _ ok ax haxcor hdecode hdecenc h => exec_next_setAxis haxcor hdecode hdecenc h ok ax⟩

/-- Settles O13: with nothing to serve and no response held, the step is the idle one. -/
theorem idleBlockKeepsItsState : Obligations.IdleBlockKeepsItsState := by
  intro s ha hi hr
  rw [step_eq_serveIdle ha hi, serveIdle, if_neg (by simp [hr])]

end Sys2Proof.Machine
end

section
/-! PROOFS of the statements on reset and hazards (spec/70_reset_and_hazards.md): what a step does to the held response and to
the configuration, and the period of the audio counter. -/

namespace Sys2Proof.Machine

/-! ### A step while a response is held -/

/-- R277: a step that answers while a response is held is no command: the host takes the response, or it is a reset, over
which the response stays held (log 7). -/
theorem step_next_of_held {s t : State} {r : Response} (h : step s = .next t) (hr : s.resp = some r) :
    (∃ rest, s.inbox = .takeResponse :: rest ∧ t = { s with resp := none, inbox := rest }) ∨
    (∃ c rest, s.inbox = .reset c :: rest ∧ c.Admissible ∧
      t = { State.resetWith c with resp := some r, inbox := rest }) := by
  obtain ⟨-, ⟨-, hnone, -⟩ | ⟨w, din, rest, -, hnone, -⟩ | htake | ⟨c, rest, hi, hc, rfl⟩⟩ := step_next_cases h
  · cases hr.symm.trans hnone
  · cases hr.symm.trans hnone
  · exact .inl htake
  · exact .inr ⟨c, rest, hi, hc, by rw [hr]⟩

/-! ### The configuration and what reset derives from it -/

/-- R271: a command that answers, legal or not, leaves the configuration, `CFG_OK` and the axis constants as they were. -/
theorem step_command_next_config {s t : State} {w : Word64} {din : List Byte} {rest : List HostAction}
    (h : step s = .next t) (hi : s.inbox = .command w din :: rest) :
    t.cfg = s.cfg ∧ t.cfgOk = s.cfgOk ∧ t.ax = s.ax := by
  obtain ⟨-, m, rfl, ⟨i, -, hm⟩ | ⟨e, -, rfl⟩⟩ := step_command_next h hi
  · obtain ⟨hcfg, hok, hax, -, -⟩ := exec_next_frame hm
    exact ⟨hcfg, hok, hax⟩
  · exact ⟨rfl, rfl, rfl⟩

/-! ### The period of the audio counter -/

/-- R23, R276: `n` advances add `n` strides. -/
theorem advanceCounter_iterate_eq_afterAudio (s : State) (n : Nat) : advanceCounter^[n] s = afterAudio n s.inbox s := by
  induction n with
  | zero => exact afterAudio_zero.symm
  | succ n ih =>
    calc advanceCounter^[n + 1] s
        = advanceCounter (afterAudio n s.inbox s) := by rw [Function.iterate_succ_apply', ih]
      _ = afterAudio 1 s.inbox (afterAudio n s.inbox s) := by rw [afterAudio_one]; rfl
      _ = afterAudio (n + 1) s.inbox s := afterAudio_afterAudio n 1 s.inbox

/-- R276: a multiple of the period is a number of strides that is 0 modulo 2^16. -/
theorem ofNat_mul_stride_eq_zero {stride : Half} {n : Nat} (h : 2 ^ 16 / Nat.gcd stride.toNat (2 ^ 16) ∣ n) :
    BitVec.ofNat 16 n * stride = 0#16 := by
  have hdvd : 2 ^ 16 ∣ n * stride.toNat :=
    calc 2 ^ 16 ∣ Nat.lcm stride.toNat (2 ^ 16) := Nat.dvd_lcm_right _ _
      _ = 2 ^ 16 / Nat.gcd stride.toNat (2 ^ 16) * stride.toNat := by
        rw [Nat.lcm, Nat.mul_div_assoc _ (Nat.gcd_dvd_right _ _), mul_comm]
      _ ∣ n * stride.toNat := Nat.mul_dvd_mul_right h _
  exact BitVec.eq_of_toNat_eq (by simpa using Nat.mod_eq_zero_of_dvd hdvd)

/-- R276: the counter is where it was after `n` strides exactly when the period divides `n`. -/
theorem add_mul_stride_eq_self_iff {ctr stride : Half} {n : Nat} :
    ctr + BitVec.ofNat 16 n * stride = ctr ↔ 2 ^ 16 / Nat.gcd stride.toNat (2 ^ 16) ∣ n := by
  constructor
  · intro h
    exact Nat.modEq_zero_iff_dvd.1 (modEq_period_of_counter_eq (ctr := ctr) (by simpa using h))
  · intro h
    rw [ofNat_mul_stride_eq_zero h, BitVec.add_zero]

/-! ### The statements -/

/-- Settles O11: beside the taking, only a reset answers while a response is held, and it carries the response along. -/
theorem heldResponseIsNeverDropped : Obligations.HeldResponseIsNeverDropped := by
  intro s t r h hr
  obtain ⟨rest, hi, rfl⟩ | ⟨c, rest, -, -, rfl⟩ := step_next_of_held h hr
  · exact .inr ⟨rfl, rest, hi⟩
  · exact .inl rfl

/-- Settles O17, by the cases of a step: a reset loads the configuration, and no other step writes a register of it. -/
theorem configurationChangesOnlyAtReset : Obligations.ConfigurationChangesOnlyAtReset := by
  constructor
  · intro s t h
    obtain ⟨-, ⟨-, -, rfl⟩ | ⟨w, din, rest, hi, -⟩ | ⟨rest, -, rfl⟩ | ⟨c, rest, hi, -, rfl⟩⟩ := step_next_cases h
    · exact .inl ⟨rfl, rfl, rfl⟩
    · exact .inl (step_command_next_config h hi)
    · exact .inl ⟨rfl, rfl, rfl⟩
    · exact .inr ⟨c, rest, hi, rfl, rfl, rfl, rfl, rfl⟩
  · intro i s t h
    obtain ⟨hcfg, hok, hax, -, -⟩ := exec_next_frame h
    exact ⟨hcfg, hok, hax⟩

/-- Settles O40: `n` advances add `n` strides, and that sum is 0 modulo 2^16 exactly at the multiples of the period. -/
theorem audioCounterPeriod : Obligations.AudioCounterPeriod := by
  intro s n
  rw [advanceCounter_iterate_eq_afterAudio]
  exact add_mul_stride_eq_self_iff

/-- Settles O10: the port tests for a held response before it serves a command or idles, and taking it is always served. -/
theorem heldResponseBlocksUntilTaken : Obligations.HeldResponseBlocksUntilTaken := by
  intro s r ha hr
  have hheld : s.resp.isSome = true := by rw [hr]; rfl
  refine ⟨fun w din rest hi => ?_, fun hi => ?_, fun rest hi => step_take ha hi⟩
  · rw [step_eq_serveCommand ha hi, serveCommand, if_pos hheld]
  · rw [step_eq_serveIdle ha hi, serveIdle, if_pos hheld]

/-- Settles O16: the port tests the configuration to be loaded, and loads it as reset does. -/
theorem resetActionReloadsTheConfiguration : Obligations.ResetActionReloadsTheConfiguration := by
  intro s c rest ha hi
  rw [step_eq_serveReset ha hi, serveReset]
  exact ⟨fun hc => if_pos hc, fun hc => if_neg hc⟩

end Sys2Proof.Machine
end
